-- ==== Sys2Proof/Word.lean ====
section
/-! DEFINITION. The widths of the block's scalar buses (spec/00_scope.md R10). -/

namespace Sys2Proof

/-- A command word: the 32-bit `CMD` port (R10, R58). -/
abbrev Cmd := BitVec 32

/-- A value of the 64-bit `DATA` port or of the 64-bit `SCALAR` register (R10). -/
abbrev Scalar := BitVec 64

end Sys2Proof
end

