-- ==== Sys2Proof/Syntax.lean ====
section
/-! DEFINITION. The commands: one constructor per row of spec/opcode_table.json (spec/30_encoding.md R64). -/

namespace Sys2Proof

/-- A command as its word says it. `DATA` and `B` travel on ports of their own (spec/30_encoding.md R58: "Every wide
operand travels on `DATA` or `B`") and are read from the machine's state. -/
inductive Instr
  /-- LOAD, `fromInteger`; `w` is the width code of R60, of which 4 to 7 decode and then raise UnsupportedWidth. -/
  | load (w : BitVec 3)
  /-- READ, `toNumber`. -/
  | read
  /-- FILL, `reset(allOnes)`; `f` is the flag operand of R59. -/
  | fill (f : Bool)
  /-- GETBIT, `getBit(index)`. -/
  | getbit
  /-- SETBIT, `setBit(index, value)`; `f` is the value. -/
  | setbit (f : Bool)
  /-- INC, `increment(delta)`. -/
  | inc
  /-- AND, `and(a,b)`. -/
  | and
  /-- OR, `or(a,b)`. -/
  | or
  /-- XOR, `xor(a,b)`. -/
  | xor
  /-- NOT, `not(a)`. -/
  | not
  /-- SHL, `shiftLeft(n)`. -/
  | shl
  /-- SHR, `shiftRight(n)`. -/
  | shr
  /-- CMP, `compare(a,b)`. -/
  | cmp
deriving DecidableEq, Repr

end Sys2Proof
end

