-- ==== Sys2Proof/Decode.lean ====
section
/-! DEFINITION. The decoder of spec/30_encoding.md R65, total over all `2^32` words and rejecting by name, and the
encoder of R72. -/

namespace Sys2Proof

/-- Why R66 calls a word illegal. -/
inductive IllegalWord
  /-- `RSV != 0`. -/
  | reservedBits
  /-- `OPC` of `0x00` or `0x0E` to `0x1F`. -/
  | illegalOpcode
  /-- `F = 1` with an opcode other than FILL or SETBIT. -/
  | strayFlag
  /-- `W != 0` with an opcode other than LOAD. -/
  | strayWidth
deriving DecidableEq, Repr

/-! The fields of the command word (R58). -/

def fieldOpc (c : Cmd) : BitVec 5 := c.extractLsb' 0 5
def fieldF (c : Cmd) : BitVec 1 := c.extractLsb' 5 1
def fieldW (c : Cmd) : BitVec 3 := c.extractLsb' 6 3
def fieldRsv (c : Cmd) : BitVec 23 := c.extractLsb' 9 23

/-- R59: "`F = 1` means true". -/
def flagOf (f : BitVec 1) : Bool := f == 1#1

/-- R65, the opcodes that take `F` and no `W` (FILL, SETBIT). -/
def withFlag (op : Bool → Instr) (f : BitVec 1) (w : BitVec 3) : Except IllegalWord Instr :=
  if w = 0#3 then .ok (op (flagOf f)) else .error .strayWidth

/-- R65, the opcodes that take neither `F` nor `W`. -/
def plain (op : Instr) (f : BitVec 1) (w : BitVec 3) : Except IllegalWord Instr :=
  if f ≠ 0#1 then .error .strayFlag else if w ≠ 0#3 then .error .strayWidth else .ok op

/-- R65 once `RSV = 0`: the opcode map of R64. -/
def decodeFields (opc : BitVec 5) (f : BitVec 1) (w : BitVec 3) : Except IllegalWord Instr :=
  match opc.toNat with
  | 0x01 => if f = 0#1 then .ok (.load w) else .error .strayFlag
  | 0x02 => plain .read f w
  | 0x03 => withFlag .fill f w
  | 0x04 => plain .getbit f w
  | 0x05 => withFlag .setbit f w
  | 0x06 => plain .inc f w
  | 0x07 => plain .and f w
  | 0x08 => plain .or f w
  | 0x09 => plain .xor f w
  | 0x0A => plain .not f w
  | 0x0B => plain .shl f w
  | 0x0C => plain .shr f w
  | 0x0D => plain .cmp f w
  | _ => .error .illegalOpcode

/-- The decoder of R65. -/
def decode (c : Cmd) : Except IllegalWord Instr :=
  if fieldRsv c ≠ 0#23 then .error .reservedBits
  else decodeFields (fieldOpc c) (fieldF c) (fieldW c)

/-- The opcode map of R64. -/
def opcode : Instr → BitVec 5
  | .load _ => 0x01#5
  | .read => 0x02#5
  | .fill _ => 0x03#5
  | .getbit => 0x04#5
  | .setbit _ => 0x05#5
  | .inc => 0x06#5
  | .and => 0x07#5
  | .or => 0x08#5
  | .xor => 0x09#5
  | .not => 0x0A#5
  | .shl => 0x0B#5
  | .shr => 0x0C#5
  | .cmp => 0x0D#5

/-- The `F` field: the operand of FILL and SETBIT, "must be 0 for every other opcode" (R58). -/
def flagField : Instr → BitVec 1
  | .fill f => BitVec.ofBool f
  | .setbit f => BitVec.ofBool f
  | _ => 0#1

/-- The `W` field: the width code of LOAD, "must be 0 for every other opcode" (R58). -/
def widthField : Instr → BitVec 3
  | .load w => w
  | _ => 0#3

/-- The command word of an instruction: `RSV`, `W`, `F`, `OPC` from the most significant end (R58). -/
def encode (i : Instr) : Cmd := 0#23 ++ widthField i ++ flagField i ++ opcode i

/-- The word an opcode-table entry of `nbits` bits stands for. Commands arrive "as whole 32-bit words on a parallel
port" (spec/20_memory.md R46) with no byte order (R45): the word is the number, its bits at and above `nbits` zero. -/
def tableWord (nbits w : Nat) : Cmd := BitVec.ofNat 32 (w % 2 ^ nbits)

/-- What the decoder reads from an opcode-table word. -/
def decodeTableWord (nbits w : Nat) : Option Instr :=
  match decode (tableWord nbits w) with
  | .ok i => some i
  | .error _ => none

end Sys2Proof
end

