-- ==== Sys2Proof/Config.lean ====
section
/-! DEFINITION. What an implementation fixes (the elaboration parameters of spec/00_scope.md R5 to R9) and the one
value the spec leaves open (a view read while a command is in progress, spec/20_memory.md R48). -/

namespace Sys2Proof

/-- `UNIT_BITS`: the byte-granular strategy has 8-bit units, the word-granular one 64-bit units, and "no other value
is admitted" (R2, R5). -/
inductive Granularity
  | byte
  | word
deriving DecidableEq, Repr

/-- `WIDE_DELTA`: what INC does with a magnitude wider than the storage (R9, R91). -/
inductive WideDelta
  | wrap
  | reject
deriving DecidableEq, Repr

/-- The parameters of one instance, "fixed for the life of the instance" (R5, R6, R8, R9). -/
structure Params where
  /-- `N`, the declared number of significant bits of `V` (R6). -/
  n : Nat
  /-- `NB`, the declared width of the second operand port `B` (R8). -/
  nb : Nat
  /-- `UNIT_BITS` (R5). -/
  granularity : Granularity
  /-- `WIDE_DELTA` (R9). -/
  wideDelta : WideDelta
deriving DecidableEq, Repr

/-- The read-only views the block drives (spec/10_state.md R39). -/
inductive View
  | vbits
  | storage (k : Nat)
  | resStorage (k : Nat)
  | resW
  | scalar
  | status
deriving DecidableEq, Repr

/-- The instance whose reset state is `Machine.State.reset`. DESIGN CHOICE (notes/assumptions/1.md): the spec admits
every `N >= 1` and `NB >= 1` and either granularity; `WRAP` is its default (R9). Unsafe only for a claim that reads
these numbers: `exec` and `step` are defined for every `Params`. -/
def Config.params : Params := { n := 16, nb := 16, granularity := .byte, wideDelta := .wrap }

/-- FREE VALUE (notes/assumptions/4.md, safe): what the wires of a view carry when they are sampled while a command
is in progress. "A view read while a command is in progress returns an unspecified value" (R48, R134; treatment
"any value", spec/93_implementation_defined.md U6). The number tells two samples apart. -/
opaque Config.midCommandView : View → Nat → Nat

end Sys2Proof
end

