-- ==== Sys2Proof/Machine/State.lean ====
section
/-! DEFINITION. The state of the block (spec/10_state.md R20 to R40), its reset, and the reasons a step could stop. -/

namespace Sys2Proof.Machine

/-- What the host presents together on the command port (spec/30_encoding.md R56). -/
structure Request where
  /-- The command word. -/
  cmd : Cmd
  /-- The 64-bit scalar operand (spec/10_state.md R28). -/
  data : Scalar
  /-- The number on the `NB`-bit second operand port (spec/10_state.md R27). -/
  b : Nat
deriving DecidableEq, Repr

/-- What the outside world can do to the block: present a command (spec/30_encoding.md R56) or assert reset
(spec/70_reset_and_hazards.md R128). -/
inductive HostEvent
  | command (r : Request)
  | reset
deriving DecidableEq, Repr

/-- The command handshake: "whether a command is in progress" (spec/10_state.md R38). -/
inductive Handshake
  | idle
  | busy
deriving DecidableEq, Repr

/-- Everything the spec gives the block (spec/10_state.md R20, R38), its parameters, and the model's own account of
the ports. -/
structure State where
  /-- The instance's parameters; no step writes them (spec/00_scope.md R5 to R9). -/
  params : Params
  /-- The value of the vector register `V` (spec/10_state.md R21, spec/00_scope.md R14). -/
  v : Nat
  /-- The value of the result register `RES` (R25). -/
  res : Nat
  /-- `RES_W`, the width of `RES` (R25). -/
  resW : Nat
  /-- `SCALAR` (R29). -/
  scalar : Scalar
  /-- `BITOUT` (R30). -/
  bitout : BitVec 1
  /-- `CMPOUT` (R31). -/
  cmpout : BitVec 2
  /-- `ERR` (R33, R34). -/
  err : BitVec 3
  /-- `ERRS`, sticky (R33, R35). -/
  errs : BitVec 1
  /-- Whether a command is in progress (R38). -/
  handshake : Handshake
  /-- MODEL'S OWN: the port values sampled at the latest acceptance (spec/30_encoding.md R56). -/
  sampled : Request
  /-- MODEL'S OWN: what the host is going to present, in order (spec/20_memory.md R51). -/
  inputs : List HostEvent
deriving DecidableEq, Repr

/-- No constructor: "No error halts, locks or resets the block" (spec/60_exceptions.md R111), so no step of this
machine ends in a fault. Safe and unsafe differences do not arise. -/
inductive Fault
deriving DecidableEq, Repr

/-- Why an answer is refused. -/
inductive Refusal
  /-- Raised by `exec` for an instruction that has no meaning yet; no arm raises it now. Safe. -/
  | notModelled (mnemonic : String)
  /-- Raised by a view read at an index `k` that "names no view" (spec/20_memory.md R42, R43: "A model refuses such a
  read rather than returning a value"); no step raises it. Safe. -/
  | noSuchView (k : Nat)
deriving DecidableEq, Repr

/-- The state of an instance with parameters `p` right after hardware reset (spec/10_state.md R40), the port idle. The
all-zero `sampled` is a DESIGN CHOICE (notes/assumptions/3.md): ports are not state, and nothing reads it before the
next acceptance overwrites it. -/
def State.resetOf (p : Params) : State where
  params := p
  v := 0
  res := 0
  resW := p.n
  scalar := 0#64
  bitout := 0#1
  cmpout := 0#2
  err := 0#3
  errs := 0#1
  handshake := .idle
  sampled := { cmd := 0#32, data := 0#64, b := 0 }
  inputs := []

/-- The machine right after reset, for the instance of `Config.params` (DESIGN CHOICE, notes/assumptions/1.md). -/
def State.reset : State := State.resetOf Config.params

end Sys2Proof.Machine
end

