-- ==== Sys2Proof/Machine/Operands.lean ====
section
/-! DEFINITION. How a command reads its operands from the sampled ports (spec/30_encoding.md R60 to R63). -/

namespace Sys2Proof.Machine

/-- `sint64(x)`: `x` as 64-bit two's complement (spec/00_scope.md R14, R15). -/
def sint64 (x : Scalar) : Int := if x.toNat < 2 ^ 63 then x.toNat else (x.toNat : Int) - 2 ^ 64

/-- The signed delta of INC and the signed count of SHL and SHR (R61). -/
def operandSigned (s : State) : Int := sint64 s.sampled.data

/-- The unsigned bit index of GETBIT and SETBIT (R61). -/
def operandIndex (s : State) : Nat := s.sampled.data.toNat

/-- `DATA[Wbits-1:0]`, LOAD's pattern; "bits `DATA[63:Wbits]` are ignored" (R61, R62). -/
def operandPattern (s : State) (wbits : Nat) : Nat := s.sampled.data.toNat % 2 ^ wbits

/-- The second operand. The port has no wires at positions `>= NB` (spec/10_state.md R27), so a number past them is
read modulo `2^NB`. -/
def operandB (s : State) : Nat := s.sampled.b % 2 ^ s.params.nb

/-- `Wbits` of a LOAD width code; codes 4 to 7 are unsupported (R60). -/
def loadWidth (w : BitVec 3) : Option Nat :=
  match w.toNat with
  | 0 => some 8
  | 1 => some 16
  | 2 => some 32
  | 3 => some 64
  | _ => none

end Sys2Proof.Machine
end

