-- ==== Sys2Proof/Machine/Flags.lean ====
section
/-! DEFINITION. Error codes, result flags and the status word (spec/60_exceptions.md R112, spec/10_state.md R31,
R33). The block has no carry, overflow, zero or sign flag (spec/10_state.md R32). -/

namespace Sys2Proof.Machine

/-- The errors a command can raise (R112). -/
inductive Error
  | unsupportedWidth
  | indexOutOfRange
  | readbackUnsupportedShape
  | illegalCommand
  | widthMismatch
  | deltaTooWide
deriving DecidableEq, Repr

/-- The `ERR` code of an error (R112); 0 is success and 7 is never written. -/
def errorCode : Error → BitVec 3
  | .unsupportedWidth => 1#3
  | .indexOutOfRange => 2#3
  | .readbackUnsupportedShape => 3#3
  | .illegalCommand => 4#3
  | .widthMismatch => 5#3
  | .deltaTooWide => 6#3

/-- `CMPOUT <- res mod 4` (spec/46_compare.md R107): the compare result in 2-bit two's complement (R31). -/
def compareCode (r : Int) : BitVec 2 := BitVec.ofNat 2 (r % 4).toNat

/-- The `STATUS` word (R33): `ERR[2:0]`, `ERRS[3]`, `BITOUT[4]`, `CMPOUT[6:5]`, zeros above. -/
def statusWord (s : State) : BitVec 32 := 0#25 ++ s.cmpout ++ s.bitout ++ s.errs ++ s.err

end Sys2Proof.Machine
end

