-- ==== Sys2Proof/Machine/Units.lean ====
section
/-! DEFINITION. Storage: unit counts, unit images, the truncation mask and the unit-by-unit circuits of spec/00_scope.md
R7, R13, spec/41_truncate_fill.md R79, spec/43_add_sub.md R89, R90, spec/44_logic.md, spec/45_shift.md R102 and
spec/46_compare.md R107. A unit image is a list of naturals, most significant unit first; `ub` is `UNIT_BITS`. -/

namespace Sys2Proof.Machine

/-- `UNIT_BITS` (spec/00_scope.md R5). -/
def unitBits (p : Params) : Nat :=
  match p.granularity with
  | .byte => 8
  | .word => 64

/-- How many units of `ub` bits hold `w` bits: `ceil(w / ub)`. -/
def unitsFor (ub w : Nat) : Nat := (w + (ub - 1)) / ub

/-- `UC` (R7). -/
def unitCount (p : Params) : Nat := unitsFor (unitBits p) p.n

/-- `UCB` (R8). -/
def portUnitCount (p : Params) : Nat := unitsFor (unitBits p) p.nb

/-- `CAP` (R7). -/
def capacity (p : Params) : Nat := unitCount p * unitBits p

/-- `R`, the width of the partial top unit (R7). -/
def topBits (p : Params) : Nat := p.n % unitBits p

/-- `U(v, c)`: the `c`-unit image of `v` (R13, R14). -/
def units (ub : Nat) : Nat → Nat → List Nat
  | 0, _ => []
  | c + 1, v => v / 2 ^ (ub * c) % 2 ^ ub :: units ub c v

/-- `value(u)`: the number a unit image represents (R13). -/
def value (ub : Nat) : List Nat → Nat
  | [] => 0
  | u :: us => u * 2 ^ (ub * us.length) + value ub us

/-- The most-significant unit ANDed with a mask; the other units as they are. -/
def maskTop (mask : Nat) : List Nat → List Nat
  | [] => []
  | u :: us => (u &&& mask) :: us

/-- The truncation mask at width `w` over the storage that `w` bits need (spec/41_truncate_fill.md R79, R82). -/
def cutAt (ub w v : Nat) : Nat :=
  if w % ub = 0 then v
  else value ub (maskTop (2 ^ (w % ub) - 1) (units ub (unitsFor ub w) v))

/-- `cut` (R79): the truncation mask at width `N`. -/
def cut (p : Params) (v : Nat) : Nat := cutAt (unitBits p) p.n v

/-- `AddUnits` with its carry out of the most-significant unit, least-significant unit first, exact carry
(spec/43_add_sub.md R89, spec/90_conflicts.md C1). -/
def addCarry (ub : Nat) : List Nat → List Nat → List Nat × Nat
  | a :: as, b :: bs =>
    let low := addCarry ub as bs
    let s := a + b + low.2
    (s % 2 ^ ub :: low.1, s / 2 ^ ub)
  | _, _ => ([], 0)

/-- `AddUnits` (R89): "the carry out of r[0] is discarded". -/
def addUnits (ub : Nat) (a b : List Nat) : List Nat := (addCarry ub a b).1

/-- `SubUnits` with its borrow out of the most-significant unit (R90). -/
def subBorrow (ub : Nat) : List Nat → List Nat → List Nat × Nat
  | a :: as, b :: bs =>
    let low := subBorrow ub as bs
    let t : Int := (a : Int) - b - low.2
    if t < 0 then ((t + 2 ^ ub).toNat :: low.1, 1) else (t.toNat :: low.1, 0)
  | _, _ => ([], 0)

/-- `SubUnits` (R90): "the borrow out of r[0] is discarded". -/
def subUnits (ub : Nat) (a b : List Nat) : List Nat := (subBorrow ub a b).1

/-- `lsu(x, j)`: unit `j` from the least-significant end, 0 past the image's length (spec/44_logic.md). -/
def lsu (x : List Nat) (j : Nat) : Nat := if j < x.length then x.getD (x.length - 1 - j) 0 else 0

/-- The unit-by-unit walk of AND, OR and XOR over `c` units, back in most-significant-first order (R96 to R98). -/
def logicUnits (op : Nat → Nat → Nat) (a b : List Nat) : Nat → List Nat
  | 0 => []
  | c + 1 => op (lsu a c) (lsu b c) :: logicUnits op a b c

/-- `and(x, y)` of operands of widths `wx` and `wy`: the result's value and width (R96). -/
def vecAnd (ub x wx y wy : Nat) : Nat × Nat :=
  (value ub (logicUnits (· &&& ·) (units ub (unitsFor ub wx) x) (units ub (unitsFor ub wy) y)
    (min (unitsFor ub wx) (unitsFor ub wy))), min wx wy)

/-- `or(x, y)` (R97). -/
def vecOr (ub x wx y wy : Nat) : Nat × Nat :=
  (value ub (logicUnits (· ||| ·) (units ub (unitsFor ub wx) x) (units ub (unitsFor ub wy) y)
    (max (unitsFor ub wx) (unitsFor ub wy))), max wx wy)

/-- `xor(x, y)` (R98). -/
def vecXor (ub x wx y wy : Nat) : Nat × Nat :=
  (value ub (logicUnits (· ^^^ ·) (units ub (unitsFor ub wx) x) (units ub (unitsFor ub wy) y)
    (max (unitsFor ub wx) (unitsFor ub wy))), max wx wy)

/-- `not_w(x)` (R99): every unit inverted, padding included, then truncated. -/
def vecNot (ub x w : Nat) : Nat × Nat :=
  (cutAt ub w (value ub ((units ub (unitsFor ub w) x).map (· ^^^ (2 ^ ub - 1)))), w)

/-- The direction of a shift (spec/45_shift.md R102). -/
inductive ShiftDir
  | left
  | right
deriving DecidableEq, Repr

/-- The number whose bit `p` is `f p` below position `c`: `sum over p of dst[p] * 2^p` (R102). -/
def bitSum (f : Nat → Bool) : Nat → Nat
  | 0 => 0
  | c + 1 => bitSum f c + (f c).toNat * 2 ^ c

/-- `dst[p]` of `Barrel` (R102): "bits from outside the storage are zero". -/
def barrelBit (cap v k : Nat) (dir : ShiftDir) (p : Nat) : Bool :=
  let q : Int := match dir with
    | .left => (p : Int) - k
    | .right => (p : Int) + k
  if 0 ≤ q ∧ q < cap then v.testBit q.toNat else false

/-- `Barrel(v, k, dir)` over a `cap`-bit storage (R102). -/
def barrel (cap v k : Nat) (dir : ShiftDir) : Nat := bitSum (barrelBit cap v k dir) cap

/-- The comparator's scan, most-significant unit first (spec/46_compare.md R107). -/
def compareUnits : List Nat → List Nat → Int
  | a :: as, b :: bs => if a ≠ b then (if a < b then -1 else 1) else compareUnits as bs
  | _, _ => 0

/-- `compare(x, y)`: both operands zero-extended to the longer unit count (R107). -/
def vecCompare (ub x wx y wy : Nat) : Int :=
  compareUnits (units ub (max (unitsFor ub wx) (unitsFor ub wy)) x)
    (units ub (max (unitsFor ub wx) (unitsFor ub wy)) y)

end Sys2Proof.Machine
end

