-- ==== Sys2Proof/Machine/Ops.lean ====
section
/-! DEFINITION. The operations every meaning is built from: writing a register, completing, and raising an error. An
error is the only exceptional event of the block: there is no trap entry and no return (spec/60_exceptions.md R118,
R119), so `raiseError` is all of it. -/

namespace Sys2Proof.Machine

/-- `V <- cut(x)`: every mutator applies the truncation mask last (spec/41_truncate_fill.md R82). -/
def writeV (s : State) (x : Nat) : State := { s with v := cut s.params x }

/-- `RES` and `RES_W` together (spec/10_state.md R25). -/
def writeRes (s : State) (r : Nat × Nat) : State := { s with res := r.1, resW := r.2 }

/-- `SCALAR <- zext_64(x)` (R29). -/
def writeScalar (s : State) (x : Nat) : State := { s with scalar := BitVec.ofNat 64 x }

/-- `BITOUT` (R30). -/
def writeBitout (s : State) (b : Bool) : State := { s with bitout := BitVec.ofBool b }

/-- `CMPOUT` (R31). -/
def writeCmpout (s : State) (r : Int) : State := { s with cmpout := compareCode r }

/-- `ERR <- 0` and the port ready again: a command completes successfully (R34, spec/30_encoding.md R57). -/
def completeOk (s : State) : State := { s with err := 0#3, handshake := .idle }

/-- `raise Error(e)`: the code in `ERR`, `ERRS` set, the block ready for the next command (spec/60_exceptions.md R111,
R113; spec/10_state.md R34, R35). -/
def raiseError (s : State) (e : Error) : State :=
  { s with err := errorCode e, errs := 1#1, handshake := .idle }

/-- The storage of `V` as its `UC` units (spec/10_state.md R21). -/
def storageUnits (s : State) : List Nat := units (unitBits s.params) (unitCount s.params) s.v

end Sys2Proof.Machine
end

