-- ==== Sys2Proof/Machine/AddSub.lean ====
section
/-! DEFINITION. INC (spec/43_add_sub.md). -/

namespace Sys2Proof.Machine

/-- The magnitude needs more than `UC` units (R91). -/
def tooWide (p : Params) (m : Nat) : Bool := decide (2 ^ capacity p ≤ m)

/-- The magnitude INC adds or subtracts: a too-wide one keeps its low `UC` units (R88, R91 `WRAP`). -/
def narrowed (p : Params) (m : Nat) : Nat := if tooWide p m then m % 2 ^ capacity p else m

/-- INC (R88): ripple adder for a positive delta, ripple subtractor for a negative one. -/
def execInc (s : State) : Host.Outcome State Fault Refusal :=
  let p := s.params
  let d := operandSigned s
  let m := d.natAbs
  if d = 0 then .next (completeOk s)
  else if tooWide p m && p.wideDelta == .reject then .next (raiseError s .deltaTooWide)
  else
    let a := storageUnits s
    let b := units (unitBits p) (unitCount p) (narrowed p m)
    let r := if d > 0 then addUnits (unitBits p) a b else subUnits (unitBits p) a b
    .next (completeOk (writeV s (value (unitBits p) r)))

end Sys2Proof.Machine
end

