-- ==== Sys2Proof/Machine/BitAccess.lean ====
section
/-! DEFINITION. GETBIT and SETBIT (spec/42_bit_access.md). -/

namespace Sys2Proof.Machine

/-- GETBIT (R85): an index at or past `N` reads 0 without error. -/
def execGetbit (s : State) : Host.Outcome State Fault Refusal :=
  if s.params.n ≤ operandIndex s then .next (completeOk (writeBitout s false))
  else .next (completeOk (writeBitout s (s.v.testBit (operandIndex s))))

/-- `(v AND NOT 2^i) OR (f * 2^i)` (R86). -/
def putBit (v i : Nat) (f : Bool) : Nat := (v ^^^ (v &&& 2 ^ i)) ||| (f.toNat * 2 ^ i)

/-- SETBIT (R86): a write, not a toggle (spec/90_conflicts.md C2). -/
def execSetbit (f : Bool) (s : State) : Host.Outcome State Fault Refusal :=
  if s.params.n ≤ operandIndex s then .next (raiseError s .indexOutOfRange)
  else .next (completeOk (writeV s (putBit s.v (operandIndex s) f)))

end Sys2Proof.Machine
end

