-- ==== Sys2Proof/Machine/Compare.lean ====
section
/-! DEFINITION. CMP (spec/46_compare.md). -/

namespace Sys2Proof.Machine

/-- CMP (R107): `V` against `B`, negative when `V < B` (R109). -/
def execCmp (s : State) : Host.Outcome State Fault Refusal :=
  .next (completeOk (writeCmpout s
    (vecCompare (unitBits s.params) s.v s.params.n (operandB s) s.params.nb)))

end Sys2Proof.Machine
end

