-- ==== Sys2Proof/Machine/Convert.lean ====
section
/-! DEFINITION. LOAD and READ (spec/40_construct_convert.md). -/

namespace Sys2Proof.Machine

/-- LOAD (R73): the width code is tested first, then the width against `N`. -/
def execLoad (w : BitVec 3) (s : State) : Host.Outcome State Fault Refusal :=
  match loadWidth w with
  | none => .next (raiseError s .unsupportedWidth)
  | some wbits =>
    if wbits ≠ s.params.n then .next (raiseError s .widthMismatch)
    else .next (completeOk (writeV s (operandPattern s wbits)))

/-- R76: the storage capacity is a native width. -/
def readLegal (p : Params) : Bool :=
  capacity p == 8 || capacity p == 16 || capacity p == 32 || capacity p == 64

/-- READ (R75): on an unsupported shape `SCALAR <- 0` and then the error. -/
def execRead (s : State) : Host.Outcome State Fault Refusal :=
  if readLegal s.params then
    .next (completeOk (writeScalar s (value (unitBits s.params) (storageUnits s))))
  else .next (raiseError (writeScalar s 0) .readbackUnsupportedShape)

end Sys2Proof.Machine
end

