-- ==== Sys2Proof/Machine/Fill.lean ====
section
/-! DEFINITION. FILL (spec/41_truncate_fill.md). -/

namespace Sys2Proof.Machine

/-- Every unit all-ones or all-zeros (R84). -/
def fillUnits (p : Params) (f : Bool) : List Nat :=
  List.replicate (unitCount p) (if f then 2 ^ unitBits p - 1 else 0)

/-- FILL (R84): fill every unit, then truncate. -/
def execFill (f : Bool) (s : State) : Host.Outcome State Fault Refusal :=
  .next (completeOk (writeV s (value (unitBits s.params) (fillUnits s.params f))))

end Sys2Proof.Machine
end

