-- ==== Sys2Proof/Machine/Logic.lean ====
section
/-! DEFINITION. AND, OR, XOR and NOT (spec/44_logic.md): they write `RES` and `RES_W` and never `V`. -/

namespace Sys2Proof.Machine

/-- AND (R96): narrows to the smaller operand. -/
def execAnd (s : State) : Host.Outcome State Fault Refusal :=
  .next (completeOk (writeRes s (vecAnd (unitBits s.params) s.v s.params.n (operandB s) s.params.nb)))

/-- OR (R97). -/
def execOr (s : State) : Host.Outcome State Fault Refusal :=
  .next (completeOk (writeRes s (vecOr (unitBits s.params) s.v s.params.n (operandB s) s.params.nb)))

/-- XOR (R98). -/
def execXor (s : State) : Host.Outcome State Fault Refusal :=
  .next (completeOk (writeRes s (vecXor (unitBits s.params) s.v s.params.n (operandB s) s.params.nb)))

/-- NOT (R99). -/
def execNot (s : State) : Host.Outcome State Fault Refusal :=
  .next (completeOk (writeRes s (vecNot (unitBits s.params) s.v s.params.n)))

end Sys2Proof.Machine
end

