-- ==== Sys2Proof/Machine/Shift.lean ====
section
/-! DEFINITION. SHL and SHR (spec/45_shift.md). -/

namespace Sys2Proof.Machine

/-- The other direction: "A negative `n` is a shift in the opposite direction" (R103). -/
def oppositeDir : ShiftDir → ShiftDir
  | .left => .right
  | .right => .left

/-- A shift by a signed count, `dir` for a positive one (R103, R104): zero is a no-op, every count is legal. -/
def shiftBy (dir : ShiftDir) (s : State) : State :=
  let n := operandSigned s
  if n = 0 then completeOk s
  else
    completeOk (writeV s
      (barrel (capacity s.params) s.v n.natAbs (if n > 0 then dir else oppositeDir dir)))

/-- SHL (R103). -/
def execShl (s : State) : Host.Outcome State Fault Refusal := .next (shiftBy .left s)

/-- SHR (R104). -/
def execShr (s : State) : Host.Outcome State Fault Refusal := .next (shiftBy .right s)

end Sys2Proof.Machine
end

