-- ==== Sys2Proof/Machine/Dispatch.lean ====
section
/-! DEFINITION. One arm per command of spec/30_encoding.md R64. -/

namespace Sys2Proof.Machine

def exec (i : Instr) (s : State) : Host.Outcome State Fault Refusal :=
  match i with
  | .load w => Sys2Proof.Machine.execLoad w s
  | .read => Sys2Proof.Machine.execRead s
  | .fill f => Sys2Proof.Machine.execFill f s
  | .getbit => Sys2Proof.Machine.execGetbit s
  | .setbit f => Sys2Proof.Machine.execSetbit f s
  | .inc => Sys2Proof.Machine.execInc s
  | .and => Sys2Proof.Machine.execAnd s
  | .or => Sys2Proof.Machine.execOr s
  | .xor => Sys2Proof.Machine.execXor s
  | .not => Sys2Proof.Machine.execNot s
  | .shl => Sys2Proof.Machine.execShl s
  | .shr => Sys2Proof.Machine.execShr s
  | .cmp => Sys2Proof.Machine.execCmp s

end Sys2Proof.Machine
end

