-- ==== Sys2Proof/Machine/Port.lean ====
section
/-! DEFINITION. The command port and the reset input (spec/30_encoding.md R56, R57, R66;
spec/70_reset_and_hazards.md R128, R132). -/

namespace Sys2Proof.Machine

/-- Acceptance: the three inputs are sampled at once and a command is in progress (R56). -/
def accept (s : State) (r : Request) (rest : List HostEvent) : State :=
  { s with sampled := r, handshake := .busy, inputs := rest }

/-- Runs the command in progress to completion, from the sampled values only (R56, R57). A word the decoder maps to
Illegal raises `IllegalCommand` (R66). -/
def runSampled (s : State) : Host.Outcome State Fault Refusal :=
  match decode s.sampled.cmd with
  | .ok i => exec i s
  | .error _ => .next (raiseError s .illegalCommand)

/-- Hardware reset (R128): every piece of state at its reset value, the parameters as they were, what the host
presents next untouched. A command in progress has no effect. -/
def hardReset (s : State) (rest : List HostEvent) : State :=
  { State.resetOf s.params with inputs := rest }

/-- One atomic step of the untimed block (R137). An idle block takes the host's next event; with none it holds its
state (spec/60_exceptions.md R127). A block with a command in progress completes it while a presented command waits
(R132), unless reset aborts it (R128). -/
def advance (s : State) : Host.Outcome State Fault Refusal :=
  match s.inputs, s.handshake with
  | .reset :: rest, _ => .next (hardReset s rest)
  | _, .busy => runSampled s
  | [], .idle => .next s
  | .command r :: rest, .idle => runSampled (accept s r rest)

/-- `s` with a command word presented next at an idle port, `DATA` and `B` as they were last driven. -/
def presentWord (s : State) (c : Cmd) : State :=
  { s with
    handshake := .idle
    inputs := .command { cmd := c, data := s.sampled.data, b := s.sampled.b } :: s.inputs }

end Sys2Proof.Machine
end

