-- ==== Sys2Proof/Machine/Step.lean ====
section
/-! DEFINITION. One step of the block, and how the host's opcode-table words reach it. -/

namespace Sys2Proof.Machine

/-- One step (spec/70_reset_and_hazards.md R137). -/
def step (s : State) : Host.Outcome State Fault Refusal := advance s

/-- The state whose very next step accepts and runs the opcode-table word `w` of `nbits` bits: the word presented at
an idle port. -/
def State.withFetchWord (s : State) (nbits w : Nat) : State := presentWord s (tableWord nbits w)

end Sys2Proof.Machine
end

