-- ==== Sys2Proof/Machine/Assembler.lean ====
section
/-! DEFINITION. The assembler syntax as data (spec/30_encoding.md R70) and the pseudo-instructions (R71): what a host
drives on the port for each line. -/

namespace Sys2Proof.Machine

/-- One line of the syntax of R70. The literals of INC, SHL and SHR may be negative; LOAD's too, for R73's
`LOAD.8 -1`. -/
inductive AsmLine
  /-- `LOAD.8`, `.16`, `.32`, `.64` are the width codes 0 to 3, `LOAD.W<k>` the code `k`. -/
  | load (w : BitVec 3) (imm : Int)
  | read
  | fill (f : Bool)
  | getbit (idx : Nat)
  | setbit (f : Bool) (idx : Nat)
  | inc (delta : Int)
  | and (b : Nat)
  | or (b : Nat)
  | xor (b : Nat)
  | not
  | shl (n : Int)
  | shr (n : Int)
  | cmp (b : Nat)
deriving DecidableEq, Repr

/-- The pseudo-instructions (R71). -/
inductive PseudoLine
  | clr
  | ones
  /-- `DEC m`, `1 <= m <= 2^63`. -/
  | dec (m : Nat)
  | bset (i : Nat)
  | bclr (i : Nat)
deriving DecidableEq, Repr

/-- The command a line stands for. -/
def asmInstr : AsmLine → Instr
  | .load w _ => .load w
  | .read => .read
  | .fill f => .fill f
  | .getbit _ => .getbit
  | .setbit f _ => .setbit f
  | .inc _ => .inc
  | .and _ => .and
  | .or _ => .or
  | .xor _ => .xor
  | .not => .not
  | .shl _ => .shl
  | .shr _ => .shr
  | .cmp _ => .cmp

/-- The `DATA` column of R70; "an operand the syntax does not show is driven as 0 on the port". -/
def asmData : AsmLine → Scalar
  | .load _ imm => BitVec.ofInt 64 imm
  | .getbit idx => BitVec.ofNat 64 idx
  | .setbit _ idx => BitVec.ofNat 64 idx
  | .inc delta => BitVec.ofInt 64 delta
  | .shl n => BitVec.ofInt 64 n
  | .shr n => BitVec.ofInt 64 n
  | _ => 0#64

/-- The `B` column of R70. -/
def asmB : AsmLine → Nat
  | .and b => b
  | .or b => b
  | .xor b => b
  | .cmp b => b
  | _ => 0

/-- What the host presents for one line (R70). -/
def assemble (l : AsmLine) : Request := { cmd := encode (asmInstr l), data := asmData l, b := asmB l }

/-- The expansion of a pseudo-instruction, "to exactly one command" (R71). -/
def expand : PseudoLine → AsmLine
  | .clr => .fill false
  | .ones => .fill true
  | .dec m => .inc (-(m : Int))
  | .bset i => .setbit true i
  | .bclr i => .setbit false i

end Sys2Proof.Machine
end

