-- ==== Sys2Proof/Machine/Views.lean ====
section
/-! DEFINITION. The read-only views (spec/10_state.md R39; spec/20_memory.md R42, R43, R46, R48, R49;
spec/40_construct_convert.md R77). Reading one changes nothing: each is a function of the state. -/

namespace Sys2Proof.Machine

/-- `STORAGE[k]` (R42): unit `k` of `V`, most significant first; an index past the end is refused. -/
def viewStorage (s : State) (k : Nat) : Except Refusal Nat :=
  if k < unitCount s.params then .ok ((storageUnits s).getD k 0) else .error (.noSuchView k)

/-- `RES_UC` (spec/10_state.md R25). -/
def resUnitCount (s : State) : Nat := unitsFor (unitBits s.params) s.resW

/-- `RES_STORAGE[k]` (R43): unit `k` of `U(RES, RES_UC)`. -/
def viewResStorage (s : State) (k : Nat) : Except Refusal Nat :=
  if k < resUnitCount s then .ok ((units (unitBits s.params) (resUnitCount s) s.res).getD k 0)
  else .error (.noSuchView k)

/-- The `w` bits of a number below position `w`, most significant first. -/
def bitsOf (v : Nat) : Nat → List Bool
  | 0 => []
  | w + 1 => v.testBit w :: bitsOf v w

/-- `VBITS` (R77): `VBITS[k] = V[N-1-k]`. -/
def viewVbits (s : State) : List Bool := bitsOf s.v s.params.n

/-- What one read of a view returns (R46): a number, or for `VBITS` a sequence of bits. -/
inductive ViewValue
  | number (x : Nat)
  | bits (bs : List Bool)
deriving DecidableEq, Repr

/-- A view read between commands, where "the views are defined" (spec/70_reset_and_hazards.md R134). -/
def readIdleView (s : State) : View → Except Refusal ViewValue
  | .vbits => .ok (.bits (viewVbits s))
  | .storage k => (viewStorage s k).map .number
  | .resStorage k => (viewResStorage s k).map .number
  | .resW => .ok (.number s.resW)
  | .scalar => .ok (.number s.scalar.toNat)
  | .status => .ok (.number (statusWord s).toNat)

/-- A view read while a command is in progress: a free value of the view's width (R46, R48); an index that names no
view is refused all the same. -/
def readBusyView (s : State) (w : View) (instant : Nat) : Except Refusal ViewValue :=
  let free := Config.midCommandView w instant
  match w with
  | .vbits => .ok (.bits (bitsOf free s.params.n))
  | .storage k => (viewStorage s k).map fun _ => .number (free % 2 ^ unitBits s.params)
  | .resStorage k => (viewResStorage s k).map fun _ => .number (free % 2 ^ unitBits s.params)
  | .resW => .ok (.number free)
  | .scalar => .ok (.number (free % 2 ^ 64))
  | .status => .ok (.number (free % 2 ^ 32))

/-- One read of a view by the host; `instant` is the observer's own number for the sample, and matters only while a
command is in progress. -/
def readView (s : State) (w : View) (instant : Nat) : Except Refusal ViewValue :=
  match s.handshake with
  | .idle => readIdleView s w
  | .busy => readBusyView s w instant

end Sys2Proof.Machine
end

