-- ==== Sys2Proof/WellFormed.lean ====
section
/-! DEFINITION. Well-formedness of what is given to the machine from outside: parameters and presented commands. The
types of `Instr`'s operands admit exactly the values of their fields (spec/30_encoding.md R58, R72: `f < 2`, `w < 8`),
so every term of `Instr` is well formed. -/

namespace Sys2Proof

/-- `N >= 1` and `NB >= 1` (spec/00_scope.md R6, R8); the types admit no other granularity or policy (R5, R9). -/
abbrev Params.Wf (p : Params) : Prop := 1 ≤ p.n ∧ 1 ≤ p.nb

/-- The `B` port carries a number below `2^NB` (spec/10_state.md R27). -/
abbrev Machine.Request.Wf (p : Params) (r : Machine.Request) : Prop := r.b < 2 ^ p.nb

end Sys2Proof
end

