-- ==== Sys2Proof/Safety.lean ====
section
/-! DEFINITION. The terms claims are stated in: the invariant of the block and the relation between the two
granularities. -/

namespace Sys2Proof.Machine

/-- What the spec promises of every state between commands: legal parameters (spec/00_scope.md R6, R8), the truncation
invariants of `V` and `RES` (spec/10_state.md R22, R26), the range of `RES_W` (R20), a `CMPOUT` that is a result (R31),
an `ERR` that is not the reserved code (spec/60_exceptions.md R112), and `ERRS` set whenever `ERR` reports an error
(spec/10_state.md R34, R35). -/
abbrev State.Inv (s : State) : Prop :=
  s.params.Wf ∧
  s.v < 2 ^ s.params.n ∧
  s.res < 2 ^ s.resW ∧
  1 ≤ s.resW ∧ s.resW ≤ max s.params.n s.params.nb ∧
  s.cmpout ≠ 2#2 ∧
  s.err ≠ 7#3 ∧
  (s.err ≠ 0#3 → s.errs = 1#1)

/-- Two instances that differ at most in `UNIT_BITS` and in what may depend on it (`SCALAR`, `ERR` and `ERRS` through
READ legality; spec/10_state.md R24). -/
abbrev SameValues (s t : State) : Prop :=
  t.params.n = s.params.n ∧ t.params.nb = s.params.nb ∧ t.params.wideDelta = s.params.wideDelta ∧
  t.v = s.v ∧ t.res = s.res ∧ t.resW = s.resW ∧ t.bitout = s.bitout ∧ t.cmpout = s.cmpout ∧
  t.handshake = s.handshake ∧ t.sampled = s.sampled ∧ t.inputs = s.inputs

/-- The outputs that READ legality can make different between granularities. -/
abbrev SameStatus (s t : State) : Prop := t.scalar = s.scalar ∧ t.err = s.err ∧ t.errs = s.errs

end Sys2Proof.Machine
end

