-- ==== Sys2Proof/Certificates/Slice0/Obligations.lean ====
section
/-! DEFINITION. The statements for the provers. A next state is written as the state before with the fields the rule
names changed; every field not named there keeps its value, so each equation is also its command's frame. Where a rule
speaks of `V < 2^N`, the premise `s.v < 2 ^ s.params.n` is a clause of `State.Inv`, which every step keeps. -/

open Sys2Proof Sys2Proof.Machine

/-! ## Encoding -/

/-- A few words written out from the opcode map and the decode vectors (30_encoding.md R64, 95_test_vectors.md L2.1). -/
def Obligations.DecodesWordsOfTheOpcodeMap : Prop :=
  decode 0x00000001#32 = .ok (.load 0#3) ∧ decode 0x000000C1#32 = .ok (.load 3#3) ∧
  decode 0x00000141#32 = .ok (.load 5#3) ∧ decode 0x00000002#32 = .ok .read ∧
  decode 0x00000023#32 = .ok (.fill true) ∧ decode 0x00000004#32 = .ok .getbit ∧
  decode 0x00000025#32 = .ok (.setbit true) ∧ decode 0x00000005#32 = .ok (.setbit false) ∧
  decode 0x00000006#32 = .ok .inc ∧ decode 0x00000007#32 = .ok .and ∧ decode 0x0000000A#32 = .ok .not ∧
  decode 0x0000000B#32 = .ok .shl ∧ decode 0x0000000D#32 = .ok .cmp ∧
  decode 0x00000000#32 = .error .illegalOpcode ∧ decode 0x00000161#32 = .error .strayFlag ∧
  decode 0x00000043#32 = .error .strayWidth ∧ decode 0x00000200#32 = .error .reservedBits

/-- R72: the command word for opcode `o`, flag `f` and width code `w` is `o | (f << 5) | (w << 6)`. -/
def Obligations.EncodeIsFieldFormula : Prop :=
  (∀ i : Instr, (encode i).toNat =
    (opcode i).toNat ||| ((flagField i).toNat <<< 5) ||| ((widthField i).toNat <<< 6)) ∧
  encode (.setbit true) = 0x025#32 ∧ encode (.load 3#3) = 0x0C1#32

/-- Decode and encode agree in both directions: a word decodes to a command exactly when it is that command's word. So
decoding an encoded command gives it back with every operand, and no legal word has two readings or spare bits. -/
def Obligations.DecodeIsInverseOfEncode : Prop :=
  ∀ (c : Cmd) (i : Instr), decode c = .ok i ↔ encode i = c

/-- R66: which words are illegal, with the fields of R58 taken arithmetically, and what an accepted illegal word does:
`ERR = 4`, `ERRS = 1`, nothing else (`sampled` and `inputs` are the port). -/
def Obligations.IllegalWordsRaiseIllegalCommand : Prop :=
  (∀ c : Cmd, (∃ e, decode c = .error e) ↔
    (c.toNat / 512 ≠ 0 ∨ c.toNat % 32 = 0 ∨ 0x0E ≤ c.toNat % 32 ∨
     (c.toNat / 32 % 2 = 1 ∧ c.toNat % 32 ≠ 0x03 ∧ c.toNat % 32 ≠ 0x05) ∨
     (c.toNat / 64 % 8 ≠ 0 ∧ c.toNat % 32 ≠ 0x01))) ∧
  (∀ (s : State) (r : Request) (rest : List HostEvent), s.handshake = .idle → s.inputs = .command r :: rest →
    (∃ e, decode r.cmd = .error e) →
    step s = .next { s with err := 4#3, errs := 1#1, sampled := r, inputs := rest })

/-! ## The port and the step -/

/-- A step at an idle port whose next presented word decodes to `i` is `exec i` of the state with the three inputs
sampled, a command in progress and the event taken off the host's list. -/
def Obligations.StepRunsDecodedCommand : Prop :=
  ∀ (s : State) (r : Request) (rest : List HostEvent) (i : Instr),
    s.handshake = .idle → s.inputs = .command r :: rest → decode r.cmd = .ok i →
    step s = exec i { s with sampled := r, handshake := .busy, inputs := rest }

/-- What `withFetchWord` presents is what the very next step runs, for every state, with the operands last driven. -/
def Obligations.TableWordRunsNext : Prop :=
  ∀ (s : State) (nbits w : Nat) (i : Instr), decodeTableWord nbits w = some i →
    step (s.withFetchWord nbits w) = exec i { s with
      sampled := { cmd := tableWord nbits w, data := s.sampled.data, b := s.sampled.b }, handshake := .busy }

/-- With no command presented, an idle block holds its state (R127, R137, R67). -/
def Obligations.IdlePortHoldsState : Prop :=
  ∀ s : State, s.handshake = .idle → s.inputs = [] → step s = .next s

/-- R40 and R128: reset puts every piece of state at its reset value, whether or not a command is in progress, and
does not change the parameters. -/
def Obligations.ResetSetsEveryPieceOfState : Prop :=
  ∀ (s : State) (rest : List HostEvent), s.inputs = .reset :: rest →
    ∃ t, step s = .next t ∧
      t.v = 0 ∧ storageUnits t = List.replicate (unitCount s.params) 0 ∧ t.resW = s.params.n ∧ t.res = 0 ∧
      t.scalar = 0#64 ∧ t.bitout = 0#1 ∧ t.cmpout = 0b00#2 ∧ t.err = 0#3 ∧ t.errs = 0#1 ∧
      t.handshake = .idle ∧ t.params = s.params ∧ t.inputs = rest

/-- R132: a command presented while another is in progress waits until the first completes; it is neither lost nor
merged, and is then the next one accepted. -/
def Obligations.PresentedCommandWaits : Prop :=
  ∀ (s : State) (r : Request) (rest : List HostEvent), s.handshake = .busy → s.inputs = .command r :: rest →
    ∃ t, step s = .next t ∧ runSampled s = .next t ∧ t.handshake = .idle ∧ t.inputs = .command r :: rest ∧
      step t = runSampled (accept t r rest)

/-- R135: a command uses the values sampled at acceptance, so what the host presents afterwards changes nothing it
does. -/
def Obligations.CommandUsesSampledValuesOnly : Prop :=
  ∀ (s : State) (later : List HostEvent), ∃ t, runSampled s = .next t ∧
    runSampled { s with inputs := later } = .next { t with inputs := later }

/-- THE MODEL'S CHOICE (notes/assumptions/7.md): a step is one atomic event that runs an accepted command to its end, so
every command completes and every step leaves the port idle. The spec takes completion as an assumption: "That every
accepted command completes is an assumption" (R137). Of a command that meets an error condition R111 says that it
completes, sets `ERRS` and leaves the block ready, and that no error halts the block. -/
def Obligations.EveryCommandCompletes : Prop :=
  (∀ s : State, ∃ t, runSampled s = .next t ∧ t.handshake = .idle ∧ (t.err ≠ 0#3 → t.errs = 1#1)) ∧
  (∀ s : State, ∃ t, step s = .next t ∧ t.handshake = .idle)

/-- No step changes `N`, `NB`, `UNIT_BITS` or `WIDE_DELTA` (R6, R8, R128). -/
def Obligations.ParametersNeverChange : Prop :=
  ∀ s t : State, step s = .next t → t.params = s.params

/-! ## Invariants -/

/-- Every state that meets the invariant steps to one that meets it (R22, R26, R31, R112). -/
def Obligations.StepKeepsInvariant : Prop :=
  ∀ s t : State, s.Inv → step s = .next t → t.Inv

/-- The reset state of every admitted instance meets the invariant, and so does `State.reset` (whose parameters are the
model's choice, notes/assumptions/1.md). -/
def Obligations.ResetMeetsInvariant : Prop :=
  (∀ p : Params, p.Wf → (State.resetOf p).Inv) ∧ State.reset.Inv

/-- R22: after every step, every storage bit of `V` at a position `p` with `N <= p < CAP` is zero; equivalently
`V < 2^N`, and when `R != 0` the most-significant unit is below `2^R`. -/
def Obligations.TruncationInvariantHoldsInStorage : Prop :=
  ∀ s t : State, s.Inv → step s = .next t →
    (∀ p, t.params.n ≤ p → p < capacity t.params →
      ((storageUnits t).getD (unitCount t.params - 1 - p / unitBits t.params) 0).testBit (p % unitBits t.params)
        = false) ∧
    t.v < 2 ^ t.params.n ∧
    (topBits t.params ≠ 0 → (storageUnits t).headD 0 < 2 ^ topBits t.params)

/-! ## What commands leave alone, and errors -/

/-- R23: only the mutators write `V`, and a command that ends in an error writes neither `V` nor `RES`. -/
def Obligations.OnlyMutatorsWriteV : Prop :=
  (∀ (i : Instr) (s : State),
    i = .read ∨ i = .getbit ∨ i = .and ∨ i = .or ∨ i = .xor ∨ i = .not ∨ i = .cmp →
    ∃ t, exec i s = .next t ∧ t.v = s.v) ∧
  (∀ s t : State, runSampled s = .next t → t.err ≠ 0#3 → t.v = s.v ∧ t.res = s.res)

/-- R113: a command that raises an error writes `ERR` and `ERRS` and, for READ only, `SCALAR = 0`; the state afterwards
is the state before plus the status. -/
def Obligations.ErrorsChangeOnlyStatus : Prop :=
  ∀ s t : State, runSampled s = .next t → t.err ≠ 0#3 →
    (decode s.sampled.cmd = .ok .read →
      t = { s with err := t.err, errs := 1#1, handshake := .idle, scalar := 0#64 }) ∧
    (decode s.sampled.cmd ≠ .ok .read →
      t = { s with err := t.err, errs := 1#1, handshake := .idle })

/-- R112 and R115: the error every command reports, with its condition, its code and its priority; 0 is success. -/
def Obligations.ErrorCodesAsTabulated : Prop :=
  ∀ s : State, ∃ t, runSampled s = .next t ∧ t.err =
    match decode s.sampled.cmd with
    | .error _ => 4#3
    | .ok (.load w) => if 4 ≤ w.toNat then 1#3 else if 8 * 2 ^ w.toNat ≠ s.params.n then 5#3 else 0#3
    | .ok (.setbit _) => if s.params.n ≤ s.sampled.data.toNat then 2#3 else 0#3
    | .ok .read => if capacity s.params ∈ [8, 16, 32, 64] then 0#3 else 3#3
    | .ok .inc =>
      if s.params.wideDelta = .reject ∧ 2 ^ capacity s.params ≤ s.sampled.data.toInt.natAbs then 6#3 else 0#3
    | .ok _ => 0#3

/-- R35: `ERRS` is set by every command that ends in an error, and no step but reset clears it. -/
def Obligations.ErrsIsSticky : Prop :=
  (∀ s t : State, runSampled s = .next t → t.errs = if t.err = 0#3 then s.errs else 1#1) ∧
  (∀ s t : State, s.errs = 1#1 → (∀ rest, s.inputs ≠ .reset :: rest) → step s = .next t → t.errs = 1#1) ∧
  (∀ (s : State) (rest : List HostEvent), s.inputs = .reset :: rest → ∃ t, step s = .next t ∧ t.errs = 0#1)

/-- R36: an output register that a command's rule does not name keeps its value; nor are the parameters and the ports
written. -/
def Obligations.UnnamedOutputsKeepTheirValue : Prop :=
  ∀ (i : Instr) (s : State), ∃ t, exec i s = .next t ∧
    (i ≠ .read → t.scalar = s.scalar) ∧ (i ≠ .getbit → t.bitout = s.bitout) ∧ (i ≠ .cmp → t.cmpout = s.cmpout) ∧
    (i ≠ .and ∧ i ≠ .or ∧ i ≠ .xor ∧ i ≠ .not → t.res = s.res ∧ t.resW = s.resW) ∧
    t.params = s.params ∧ t.sampled = s.sampled ∧ t.inputs = s.inputs

/-- A command that R27 and R28 do not name ignores `B`, or `DATA`: another number on that port changes nothing else. -/
def Obligations.UnusedOperandsAreIgnored : Prop :=
  (∀ (i : Instr) (s : State) (b : Nat), i ≠ .and → i ≠ .or → i ≠ .xor → i ≠ .cmp →
    ∃ t, exec i s = .next t ∧
      exec i { s with sampled := { s.sampled with b := b } } =
        .next { t with sampled := { t.sampled with b := b } }) ∧
  (∀ (i : Instr) (s : State) (d : Scalar),
    i = .read ∨ (∃ f, i = .fill f) ∨ i = .and ∨ i = .or ∨ i = .xor ∨ i = .not ∨ i = .cmp →
    ∃ t, exec i s = .next t ∧
      exec i { s with sampled := { s.sampled with data := d } } =
        .next { t with sampled := { t.sampled with data := d } })

/-! ## LOAD, READ -/

/-- R73: LOAD, its word, its two errors in order, and its result. -/
def Obligations.LoadResult : Prop :=
  ∀ (w : BitVec 3) (s : State),
    encode (.load w) = BitVec.ofNat 32 (0x001 ||| (w.toNat <<< 6)) ∧
    (4 ≤ w.toNat →
      exec (.load w) s = .next { s with err := 1#3, errs := 1#1, handshake := .idle }) ∧
    (w.toNat < 4 → 8 * 2 ^ w.toNat ≠ s.params.n →
      exec (.load w) s = .next { s with err := 5#3, errs := 1#1, handshake := .idle }) ∧
    (w.toNat < 4 → 8 * 2 ^ w.toNat = s.params.n →
      exec (.load w) s =
        .next { s with v := s.sampled.data.toNat % 2 ^ s.params.n, err := 0#3, handshake := .idle })

/-- R62: a signed source integer arrives as its two's-complement pattern, and presenting it sign-extended to 64 bits
gives the same result. -/
def Obligations.LoadOfSignExtendedPattern : Prop :=
  ∀ (w : BitVec 3) (s : State) (x : BitVec s.params.n), w.toNat < 4 → 8 * 2 ^ w.toNat = s.params.n →
    ∃ t u, exec (.load w) { s with sampled := { s.sampled with data := x.setWidth 64 } } = .next t ∧
      exec (.load w) { s with sampled := { s.sampled with data := x.signExtend 64 } } = .next u ∧
      t.v = x.toNat ∧ u = { t with sampled := { t.sampled with data := x.signExtend 64 } }

/-- R75: READ, its word, its result and its error. -/
def Obligations.ReadResult : Prop :=
  encode .read = 0x002#32 ∧
  ∀ s : State, s.v < 2 ^ s.params.n →
    (capacity s.params ∈ [8, 16, 32, 64] →
      s.v < 2 ^ 64 ∧
      exec .read s = .next { s with scalar := BitVec.ofNat 64 s.v, err := 0#3, handshake := .idle }) ∧
    (capacity s.params ∉ [8, 16, 32, 64] →
      exec .read s = .next { s with scalar := 0#64, err := 3#3, errs := 1#1, handshake := .idle })

/-- R76: READ is legal exactly when `CAP` is a native width, and the widths `N` for which that is so. -/
def Obligations.ReadLegalWidths : Prop :=
  ∀ s : State, 1 ≤ s.params.n →
    ∃ t, exec .read s = .next t ∧
      (t.err = 0#3 ↔ capacity s.params ∈ [8, 16, 32, 64]) ∧
      (s.params.granularity = .byte →
        (t.err = 0#3 ↔ unitCount s.params ∈ [1, 2, 4, 8]) ∧
        (t.err = 0#3 ↔ s.params.n ≤ 16 ∨ (25 ≤ s.params.n ∧ s.params.n ≤ 32) ∨
          (57 ≤ s.params.n ∧ s.params.n ≤ 64))) ∧
      (s.params.granularity = .word →
        (t.err = 0#3 ↔ unitCount s.params = 1) ∧ (t.err = 0#3 ↔ s.params.n ≤ 64)) ∧
      (t.err ≠ 0#3 → t.err = 3#3)

/-- R74: LOAD of a pattern of a supported width `N` followed by READ gives the pattern back without error, for both
granularities. -/
def Obligations.LoadThenReadGivesPattern : Prop :=
  ∀ (s : State) (w : BitVec 3) (d d' : Scalar) (b b' : Nat) (rest : List HostEvent),
    s.handshake = .idle → w.toNat < 4 → 8 * 2 ^ w.toNat = s.params.n →
    s.inputs = .command { cmd := encode (.load w), data := d, b := b } ::
      .command { cmd := encode .read, data := d', b := b' } :: rest →
    ∃ t u, step s = .next t ∧ step t = .next u ∧
      u.scalar.toNat = d.toNat % 2 ^ s.params.n ∧ u.err = 0#3 ∧ u.inputs = rest

/-! ## The truncation mask, FILL -/

/-- R79 and R80: the mask clears every bit at position `>= N`, so its value is `v mod 2^N`; it touches only the
most-significant unit, and nothing when the top unit is full. -/
def Obligations.CutMasksOnlyTopUnit : Prop :=
  ∀ (p : Params) (v : Nat), v < 2 ^ capacity p →
    cut p v = v % 2 ^ p.n ∧
    (topBits p = 0 → cut p v = v) ∧
    (topBits p ≠ 0 → ∀ k, k < unitCount p →
      (units (unitBits p) (unitCount p) (cut p v)).getD k 0 =
        if k = 0 then (units (unitBits p) (unitCount p) v).getD 0 0 &&& (2 ^ topBits p - 1)
        else (units (unitBits p) (unitCount p) v).getD k 0)

/-- R84: FILL sets every bit within the width, or clears the vector. -/
def Obligations.FillResult : Prop :=
  ∀ (f : Bool) (s : State),
    encode (.fill f) = (if f then 0x023#32 else 0x003#32) ∧
    exec (.fill f) s =
      .next { s with v := if f then 2 ^ s.params.n - 1 else 0, err := 0#3, handshake := .idle }

/-! ## GETBIT, SETBIT -/

/-- R85: GETBIT reads the indexed bit; an index at or past `N` reads 0 without error. -/
def Obligations.GetbitResult : Prop :=
  encode .getbit = 0x004#32 ∧
  ∀ s : State,
    (s.params.n ≤ s.sampled.data.toNat →
      exec .getbit s = .next { s with bitout := 0#1, err := 0#3, handshake := .idle }) ∧
    (s.sampled.data.toNat < s.params.n →
      exec .getbit s = .next { s with
        bitout := BitVec.ofNat 1 (s.v / 2 ^ s.sampled.data.toNat % 2), err := 0#3, handshake := .idle })

/-- R86: SETBIT writes the indexed bit and keeps every other; an index at or past `N` is an error and writes no `V`. -/
def Obligations.SetbitResult : Prop :=
  ∀ (f : Bool) (s : State),
    encode (.setbit f) = (if f then 0x025#32 else 0x005#32) ∧
    (s.params.n ≤ s.sampled.data.toNat →
      exec (.setbit f) s = .next { s with err := 2#3, errs := 1#1, handshake := .idle }) ∧
    (s.sampled.data.toNat < s.params.n → s.v < 2 ^ s.params.n →
      ∃ x, exec (.setbit f) s = .next { s with v := x, err := 0#3, handshake := .idle } ∧
        ∀ j, x.testBit j = if j = s.sampled.data.toNat then f else s.v.testBit j)

/-- R87: SETBIT.1 then GETBIT gives 1, a following SETBIT.0 then GETBIT gives 0, and every other bit is as before. -/
def Obligations.SetThenGetBit : Prop :=
  ∀ (s : State) (d : Scalar) (b : Nat) (rest : List HostEvent),
    s.handshake = .idle → s.v < 2 ^ s.params.n → d.toNat < s.params.n →
    s.inputs = .command { cmd := encode (.setbit true), data := d, b := b } ::
      .command { cmd := encode .getbit, data := d, b := b } ::
      .command { cmd := encode (.setbit false), data := d, b := b } ::
      .command { cmd := encode .getbit, data := d, b := b } :: rest →
    ∃ t₁ t₂ t₃ t₄, step s = .next t₁ ∧ step t₁ = .next t₂ ∧ step t₂ = .next t₃ ∧ step t₃ = .next t₄ ∧
      t₂.bitout = 1#1 ∧ t₄.bitout = 0#1 ∧
      (∀ j, j ≠ d.toNat → t₂.v.testBit j = s.v.testBit j ∧ t₄.v.testBit j = s.v.testBit j)

/-! ## INC -/

/-- R88: INC, its word, its error and its result, `(V + d) mod 2^N` for the signed delta on `DATA`. -/
def Obligations.IncResult : Prop :=
  encode .inc = 0x006#32 ∧
  ∀ s : State, s.v < 2 ^ s.params.n →
    (s.params.wideDelta = .reject ∧ 2 ^ capacity s.params ≤ s.sampled.data.toInt.natAbs →
      exec .inc s = .next { s with err := 6#3, errs := 1#1, handshake := .idle }) ∧
    (¬ (s.params.wideDelta = .reject ∧ 2 ^ capacity s.params ≤ s.sampled.data.toInt.natAbs) →
      exec .inc s = .next { s with
        v := (((s.v : Int) + s.sampled.data.toInt) % 2 ^ s.params.n).toNat, err := 0#3, handshake := .idle })

/-- R92: the ripple circuits compute sum and difference modulo `2^CAP`, and INC without error gives
`(V + d) mod 2^N`. -/
def Obligations.RippleCircuitsAreModular : Prop :=
  (∀ (ub : Nat) (a b : List Nat), a.length = b.length → (∀ u ∈ a, u < 2 ^ ub) → (∀ u ∈ b, u < 2 ^ ub) →
    value ub (addUnits ub a b) = (value ub a + value ub b) % 2 ^ (ub * a.length) ∧
    (value ub (subUnits ub a b) : Int) = ((value ub a : Int) - value ub b) % 2 ^ (ub * a.length)) ∧
  (∀ s : State, s.v < 2 ^ s.params.n → ∃ t, exec .inc s = .next t ∧
    (t.err = 0#3 → (t.v : Int) = ((s.v : Int) + s.sampled.data.toInt) % 2 ^ s.params.n))

/-- A magnitude can be too wide only for a byte-granular block of at most 7 units, that is `N <= 56` (R91). -/
def Obligations.TooWideOnlyBelow64Bits : Prop :=
  ∀ (p : Params) (d : Scalar), 1 ≤ p.n → 2 ^ capacity p ≤ d.toInt.natAbs →
    p.granularity = .byte ∧ unitCount p ≤ 7 ∧ p.n ≤ 56

/-- R94: the corner of the exact carry, unit by unit (the sum so far and the carry out of it), and the result. -/
def Obligations.IncExactCarryCorner : Prop :=
  addCarry 8 [0x01] [0xFF] = ([0x00], 1) ∧
  addCarry 8 [0xFF, 0x01] [0xFF, 0xFF] = ([0xFF, 0x00], 1) ∧
  addCarry 8 [0x00, 0xFF, 0x01] [0x00, 0xFF, 0xFF] = ([0x01, 0xFF, 0x00], 0) ∧
  ∀ s : State, s.params.n = 24 → s.params.granularity = .byte → s.v = 0x00FF01 → s.sampled.data = 0xFFFF#64 →
    ∃ t, exec .inc s = .next t ∧ t.v = 0x01FF00 ∧ storageUnits t = [0x01, 0xFF, 0x00]

/-- R95: under REJECT whether INC raises DeltaTooWide depends on the granularity: `N = 8`, `d = 511`. -/
def Obligations.RejectThresholdDependsOnGranularity : Prop :=
  ∀ s : State, s.params.n = 8 → s.params.wideDelta = .reject → s.v < 256 → s.sampled.data = 511#64 →
    (s.params.granularity = .byte → ∃ t, exec .inc s = .next t ∧ t.err = 6#3 ∧ t.v = s.v) ∧
    (s.params.granularity = .word → ∃ t, exec .inc s = .next t ∧ t.err = 0#3 ∧ t.v = (s.v + 511) % 256)

/-- INC wraps at both ends for every width and granularity, and at `N = 1` toggles exactly for an odd delta (R93). -/
def Obligations.IncWrapsAtBothEnds : Prop :=
  ∀ s : State, 1 ≤ s.params.n →
    (s.v = 2 ^ s.params.n - 1 → s.sampled.data = 1#64 → ∃ t, exec .inc s = .next t ∧ t.v = 0 ∧ t.err = 0#3) ∧
    (s.v = 0 → s.sampled.data = 0xFFFFFFFFFFFFFFFF#64 →
      ∃ t, exec .inc s = .next t ∧ t.v = 2 ^ s.params.n - 1 ∧ t.err = 0#3) ∧
    (s.params.n = 1 → s.v < 2 → s.params.wideDelta = .wrap →
      ∃ t, exec .inc s = .next t ∧ (t.v ≠ s.v ↔ s.sampled.data.toInt % 2 = 1))

/-! ## AND, OR, XOR, NOT -/

/-- R96: AND narrows to the smaller operand. The `B` port has `NB` wires (R27). -/
def Obligations.AndResult : Prop :=
  encode .and = 0x007#32 ∧
  ∀ s : State, s.v < 2 ^ s.params.n →
    exec .and s = .next { s with
      res := s.v &&& (s.sampled.b % 2 ^ s.params.nb), resW := min s.params.n s.params.nb,
      err := 0#3, handshake := .idle }

/-- R97: OR widens to the larger operand. -/
def Obligations.OrResult : Prop :=
  encode .or = 0x008#32 ∧
  ∀ s : State, s.v < 2 ^ s.params.n →
    exec .or s = .next { s with
      res := s.v ||| (s.sampled.b % 2 ^ s.params.nb), resW := max s.params.n s.params.nb,
      err := 0#3, handshake := .idle }

/-- R98: XOR widens to the larger operand. -/
def Obligations.XorResult : Prop :=
  encode .xor = 0x009#32 ∧
  ∀ s : State, s.v < 2 ^ s.params.n →
    exec .xor s = .next { s with
      res := s.v ^^^ (s.sampled.b % 2 ^ s.params.nb), resW := max s.params.n s.params.nb,
      err := 0#3, handshake := .idle }

/-- R99: NOT keeps the width; the inverted padding is masked away. -/
def Obligations.NotResult : Prop :=
  encode .not = 0x00A#32 ∧
  ∀ s : State, s.v < 2 ^ s.params.n →
    exec .not s = .next { s with
      res := (2 ^ s.params.n - 1) - s.v, resW := s.params.n, err := 0#3, handshake := .idle }

/-- R100: commutativity of AND, OR and XOR, values and result widths alike, and double negation within the width. -/
def Obligations.LogicLaws : Prop :=
  ∀ (p : Params) (x wx y wy : Nat), x < 2 ^ wx → y < 2 ^ wy →
    vecAnd (unitBits p) x wx y wy = vecAnd (unitBits p) y wy x wx ∧
    vecOr (unitBits p) x wx y wy = vecOr (unitBits p) y wy x wx ∧
    vecXor (unitBits p) x wx y wy = vecXor (unitBits p) y wy x wx ∧
    vecNot (unitBits p) (vecNot (unitBits p) x wx).1 wx = (x, wx)

/-! ## SHL, SHR -/

/-- R102: the closed form of the barrel. -/
def Obligations.BarrelClosedForm : Prop :=
  ∀ cap v k : Nat, v < 2 ^ cap →
    barrel cap v k .left = v * 2 ^ k % 2 ^ cap ∧ barrel cap v k .right = v / 2 ^ k

/-- R103: SHL by a signed count. Every count is legal. -/
def Obligations.ShlResult : Prop :=
  encode .shl = 0x00B#32 ∧
  ∀ s : State, s.v < 2 ^ s.params.n →
    exec .shl s = .next { s with
      v := if 0 ≤ s.sampled.data.toInt then s.v * 2 ^ s.sampled.data.toInt.natAbs % 2 ^ s.params.n
           else s.v / 2 ^ s.sampled.data.toInt.natAbs,
      err := 0#3, handshake := .idle }

/-- R104: SHR by a signed count. Every count is legal. -/
def Obligations.ShrResult : Prop :=
  encode .shr = 0x00C#32 ∧
  ∀ s : State, s.v < 2 ^ s.params.n →
    exec .shr s = .next { s with
      v := if 0 ≤ s.sampled.data.toInt then s.v / 2 ^ s.sampled.data.toInt.natAbs
           else s.v * 2 ^ s.sampled.data.toInt.natAbs % 2 ^ s.params.n,
      err := 0#3, handshake := .idle }

/-- R105: shifting by the opposite count in the opposite direction gives the same vector, and the value laws for a
count `k >= 0`, none of which mentions `UNIT_BITS`. -/
def Obligations.ShiftLaws : Prop :=
  ∀ (s : State) (d d' : Scalar), s.v < 2 ^ s.params.n → d'.toInt = -d.toInt →
    ∃ l r l' r', exec .shl { s with sampled := { s.sampled with data := d } } = .next l ∧
      exec .shr { s with sampled := { s.sampled with data := d } } = .next r ∧
      exec .shl { s with sampled := { s.sampled with data := d' } } = .next l' ∧
      exec .shr { s with sampled := { s.sampled with data := d' } } = .next r' ∧
      l'.v = r.v ∧ r'.v = l.v ∧
      (0 ≤ d.toInt → l.v = s.v * 2 ^ d.toInt.toNat % 2 ^ s.params.n ∧ r.v = s.v / 2 ^ d.toInt.toNat)

/-- R106: SHR by `n` followed by SHL by `n` clears the low `n` bits and keeps the rest; for `n >= N` it gives 0. -/
def Obligations.ShrThenShlClearsLowBits : Prop :=
  ∀ (s : State) (d : Scalar) (b : Nat) (rest : List HostEvent),
    s.handshake = .idle → s.v < 2 ^ s.params.n → 0 ≤ d.toInt →
    s.inputs = .command { cmd := encode .shr, data := d, b := b } ::
      .command { cmd := encode .shl, data := d, b := b } :: rest →
    ∃ t u, step s = .next t ∧ step t = .next u ∧
      u.v = s.v / 2 ^ d.toInt.toNat * 2 ^ d.toInt.toNat ∧
      (∀ j, u.v.testBit j = (decide (d.toInt.toNat ≤ j) && s.v.testBit j)) ∧
      (s.params.n ≤ d.toInt.toNat → u.v = 0)

/-! ## CMP -/

/-- R107 and R108: CMP orders `V` and `B` as natural numbers; negative means `V < B`. -/
def Obligations.CmpResult : Prop :=
  encode .cmp = 0x00D#32 ∧
  ∀ s : State, s.v < 2 ^ s.params.n →
    ∃ r : BitVec 2, exec .cmp s = .next { s with cmpout := r, err := 0#3, handshake := .idle } ∧
      (r = 0b11#2 ↔ s.v < s.sampled.b % 2 ^ s.params.nb) ∧
      (r = 0b00#2 ↔ s.v = s.sampled.b % 2 ^ s.params.nb) ∧
      (r = 0b01#2 ↔ s.sampled.b % 2 ^ s.params.nb < s.v)

/-- R110: the comparison function is reflexive and antisymmetric, whatever the widths. -/
def Obligations.CompareLaws : Prop :=
  ∀ (p : Params) (x wx y wy : Nat), x < 2 ^ wx → y < 2 ^ wy →
    vecCompare (unitBits p) x wx x wx = 0 ∧
    vecCompare (unitBits p) x wx y wy = -vecCompare (unitBits p) y wy x wx

/-! ## The two granularities -/

/-- Under WRAP, two instances that differ only in `UNIT_BITS` and agree in their values go on agreeing in `V`, `RES`,
`RES_W`, `BITOUT` and `CMPOUT` through any step; and in `SCALAR`, `ERR` and `ERRS` too through every step that does not
run READ (R24, R92, R101, R105, R108). -/
def Obligations.GranularityIsInvisibleInValues : Prop :=
  ∀ s t : State, s.Inv → s.params.wideDelta = .wrap → SameValues s t →
    ∃ s' t', step s = .next s' ∧ step t = .next t' ∧ SameValues s' t' ∧
      (SameStatus s t →
        (s.handshake = .busy → decode s.sampled.cmd ≠ .ok .read) →
        (∀ r rest, s.inputs = .command r :: rest → decode r.cmd ≠ .ok .read) →
        SameStatus s' t')

/-! ## Assembler lines -/

/-- R71: what the one command of each pseudo-instruction does when the host presents it at an idle port. `DEC m` is
`INC -m`, so it may raise DeltaTooWide under REJECT. -/
def Obligations.PseudoInstructionsHaveTheirMeaning : Prop :=
  ∀ (s : State) (p : PseudoLine) (rest : List HostEvent), s.handshake = .idle → s.v < 2 ^ s.params.n →
    s.inputs = .command (assemble (expand p)) :: rest →
    ∃ t, step s = .next t ∧
      match p with
      | .clr => (assemble (expand p)).cmd = 0x003#32 ∧ t.v = 0 ∧ t.err = 0#3
      | .ones => (assemble (expand p)).cmd = 0x023#32 ∧ t.v = 2 ^ s.params.n - 1 ∧ t.err = 0#3
      | .dec m => 1 ≤ m → m ≤ 2 ^ 63 →
          (assemble (expand p)).cmd = 0x006#32 ∧ (assemble (expand p)).data.toNat = 2 ^ 64 - m ∧
          (t.err = 0#3 → (t.v : Int) = ((s.v : Int) - m) % 2 ^ s.params.n) ∧
          (s.params.wideDelta = .wrap → t.err = 0#3)
      | .bset i => i < s.params.n → i < 2 ^ 64 →
          (assemble (expand p)).cmd = 0x025#32 ∧ t.err = 0#3 ∧
          ∀ j, t.v.testBit j = if j = i then true else s.v.testBit j
      | .bclr i => i < s.params.n → i < 2 ^ 64 →
          (assemble (expand p)).cmd = 0x005#32 ∧ t.err = 0#3 ∧
          ∀ j, t.v.testBit j = if j = i then false else s.v.testBit j

/-! ## Views -/

/-- R42 and R43: `STORAGE[k]` and `RES_STORAGE[k]` are the units, most significant first, and an index past the end is
refused; with R42's example. -/
def Obligations.StorageViewsAreUnits : Prop :=
  ∀ (s : State) (k instant : Nat), s.handshake = .idle →
    (k < unitCount s.params → readView s (.storage k) instant = .ok (.number
      (s.v / 2 ^ (unitBits s.params * (unitCount s.params - 1 - k)) % 2 ^ unitBits s.params))) ∧
    (unitCount s.params ≤ k → readView s (.storage k) instant = .error (.noSuchView k)) ∧
    (k < resUnitCount s → readView s (.resStorage k) instant = .ok (.number
      (s.res / 2 ^ (unitBits s.params * (resUnitCount s - 1 - k)) % 2 ^ unitBits s.params))) ∧
    (resUnitCount s ≤ k → readView s (.resStorage k) instant = .error (.noSuchView k)) ∧
    (s.params.n = 16 → s.params.granularity = .byte → s.v = 256 →
      readView s (.storage 0) instant = .ok (.number 0x01) ∧ readView s (.storage 1) instant = .ok (.number 0x00))

/-- R77: `VBITS[k] = V[N-1-k]`, which is the last `N` entries of the storage expanded unit by unit, so both
granularities give the same `VBITS`. -/
def Obligations.VbitsIsStorageSlice : Prop :=
  ∀ (s : State) (instant : Nat), s.handshake = .idle →
    ∃ bs, readView s .vbits instant = .ok (.bits bs) ∧ bs.length = s.params.n ∧
      (∀ k, k < s.params.n → bs[k]? = some (s.v.testBit (s.params.n - 1 - k))) ∧
      bs = ((storageUnits s).flatMap fun u => bitsOf u (unitBits s.params)).drop
        (capacity s.params - s.params.n)

/-- The layout of `STATUS` (R33): `ERR | ERRS << 3 | BITOUT << 4 | CMPOUT << 5`, the reserved bits 0. -/
def Obligations.StatusLayout : Prop :=
  ∀ (s : State) (instant : Nat), s.handshake = .idle →
    readView s .status instant = .ok (.number
      (s.err.toNat + 8 * s.errs.toNat + 16 * s.bitout.toNat + 32 * s.cmpout.toNat)) ∧
    (statusWord s).toNat < 2 ^ 7 ∧
    (statusWord s).extractLsb' 0 3 = s.err ∧ (statusWord s).extractLsb' 3 1 = s.errs ∧
    (statusWord s).extractLsb' 4 1 = s.bitout ∧ (statusWord s).extractLsb' 5 2 = s.cmpout

/-- Every view read returns at most the width R46 gives the view, also while a command is in progress, when its value
is free (R48). -/
def Obligations.ViewReadsFitTheirWidth : Prop :=
  ∀ (s : State) (instant k : Nat),
    (∀ x, readView s (.storage k) instant = .ok (.number x) → x < 2 ^ unitBits s.params) ∧
    (∀ x, readView s (.resStorage k) instant = .ok (.number x) → x < 2 ^ unitBits s.params) ∧
    (∃ bs, readView s .vbits instant = .ok (.bits bs) ∧ bs.length = s.params.n) ∧
    (∃ x, readView s .scalar instant = .ok (.number x) ∧ x < 2 ^ 64) ∧
    (∃ x, readView s .status instant = .ok (.number x) ∧ x < 2 ^ 32)

/-! ## Reset against FILL.0 -/

/-- R130: reset is the only way to clear `ERRS`; FILL.0 gives the `V` of reset, writes `ERR = 0` and leaves every other
piece of state; and `RES_W` returns to `N` only through the commands the rule names. -/
def Obligations.FillZeroIsNotReset : Prop :=
  (∀ s t : State, s.errs = 1#1 → step s = .next t → t.errs = 0#1 → ∃ rest, s.inputs = .reset :: rest) ∧
  (∀ s : State, exec (.fill false) s =
    .next { s with v := (State.resetOf s.params).v, err := 0#3, handshake := .idle }) ∧
  (∀ (i : Instr) (s t : State), exec i s = .next t → s.resW ≠ s.params.n → t.resW = s.params.n →
    i = .not ∨ (i = .and ∧ s.params.n ≤ s.params.nb) ∨ ((i = .or ∨ i = .xor) ∧ s.params.nb ≤ s.params.n))
end

