-- ==== Sys2Proof/Laws/State.lean ====
section
/-! SUPPORT. One lemma per field of the state and update of it, so that no later proof unfolds a record update. -/

namespace Sys2Proof.Machine

variable (s : State)

/-! writeV -/

@[simp] theorem writeV_params (x : Nat) : (writeV s x).params = s.params := rfl
@[simp] theorem writeV_v (x : Nat) : (writeV s x).v = cut s.params x := rfl
@[simp] theorem writeV_res (x : Nat) : (writeV s x).res = s.res := rfl
@[simp] theorem writeV_resW (x : Nat) : (writeV s x).resW = s.resW := rfl
@[simp] theorem writeV_scalar (x : Nat) : (writeV s x).scalar = s.scalar := rfl
@[simp] theorem writeV_bitout (x : Nat) : (writeV s x).bitout = s.bitout := rfl
@[simp] theorem writeV_cmpout (x : Nat) : (writeV s x).cmpout = s.cmpout := rfl
@[simp] theorem writeV_err (x : Nat) : (writeV s x).err = s.err := rfl
@[simp] theorem writeV_errs (x : Nat) : (writeV s x).errs = s.errs := rfl
@[simp] theorem writeV_handshake (x : Nat) : (writeV s x).handshake = s.handshake := rfl
@[simp] theorem writeV_sampled (x : Nat) : (writeV s x).sampled = s.sampled := rfl
@[simp] theorem writeV_inputs (x : Nat) : (writeV s x).inputs = s.inputs := rfl

/-! writeRes -/

@[simp] theorem writeRes_params (r : Nat × Nat) : (writeRes s r).params = s.params := rfl
@[simp] theorem writeRes_v (r : Nat × Nat) : (writeRes s r).v = s.v := rfl
@[simp] theorem writeRes_res (r : Nat × Nat) : (writeRes s r).res = r.1 := rfl
@[simp] theorem writeRes_resW (r : Nat × Nat) : (writeRes s r).resW = r.2 := rfl
@[simp] theorem writeRes_scalar (r : Nat × Nat) : (writeRes s r).scalar = s.scalar := rfl
@[simp] theorem writeRes_bitout (r : Nat × Nat) : (writeRes s r).bitout = s.bitout := rfl
@[simp] theorem writeRes_cmpout (r : Nat × Nat) : (writeRes s r).cmpout = s.cmpout := rfl
@[simp] theorem writeRes_err (r : Nat × Nat) : (writeRes s r).err = s.err := rfl
@[simp] theorem writeRes_errs (r : Nat × Nat) : (writeRes s r).errs = s.errs := rfl
@[simp] theorem writeRes_handshake (r : Nat × Nat) : (writeRes s r).handshake = s.handshake := rfl
@[simp] theorem writeRes_sampled (r : Nat × Nat) : (writeRes s r).sampled = s.sampled := rfl
@[simp] theorem writeRes_inputs (r : Nat × Nat) : (writeRes s r).inputs = s.inputs := rfl

/-! writeScalar -/

@[simp] theorem writeScalar_params (x : Nat) : (writeScalar s x).params = s.params := rfl
@[simp] theorem writeScalar_v (x : Nat) : (writeScalar s x).v = s.v := rfl
@[simp] theorem writeScalar_res (x : Nat) : (writeScalar s x).res = s.res := rfl
@[simp] theorem writeScalar_resW (x : Nat) : (writeScalar s x).resW = s.resW := rfl
@[simp] theorem writeScalar_scalar (x : Nat) : (writeScalar s x).scalar = BitVec.ofNat 64 x := rfl
@[simp] theorem writeScalar_bitout (x : Nat) : (writeScalar s x).bitout = s.bitout := rfl
@[simp] theorem writeScalar_cmpout (x : Nat) : (writeScalar s x).cmpout = s.cmpout := rfl
@[simp] theorem writeScalar_err (x : Nat) : (writeScalar s x).err = s.err := rfl
@[simp] theorem writeScalar_errs (x : Nat) : (writeScalar s x).errs = s.errs := rfl
@[simp] theorem writeScalar_handshake (x : Nat) : (writeScalar s x).handshake = s.handshake := rfl
@[simp] theorem writeScalar_sampled (x : Nat) : (writeScalar s x).sampled = s.sampled := rfl
@[simp] theorem writeScalar_inputs (x : Nat) : (writeScalar s x).inputs = s.inputs := rfl

/-! writeBitout -/

@[simp] theorem writeBitout_params (b : Bool) : (writeBitout s b).params = s.params := rfl
@[simp] theorem writeBitout_v (b : Bool) : (writeBitout s b).v = s.v := rfl
@[simp] theorem writeBitout_res (b : Bool) : (writeBitout s b).res = s.res := rfl
@[simp] theorem writeBitout_resW (b : Bool) : (writeBitout s b).resW = s.resW := rfl
@[simp] theorem writeBitout_scalar (b : Bool) : (writeBitout s b).scalar = s.scalar := rfl
@[simp] theorem writeBitout_bitout (b : Bool) : (writeBitout s b).bitout = BitVec.ofBool b := rfl
@[simp] theorem writeBitout_cmpout (b : Bool) : (writeBitout s b).cmpout = s.cmpout := rfl
@[simp] theorem writeBitout_err (b : Bool) : (writeBitout s b).err = s.err := rfl
@[simp] theorem writeBitout_errs (b : Bool) : (writeBitout s b).errs = s.errs := rfl
@[simp] theorem writeBitout_handshake (b : Bool) : (writeBitout s b).handshake = s.handshake := rfl
@[simp] theorem writeBitout_sampled (b : Bool) : (writeBitout s b).sampled = s.sampled := rfl
@[simp] theorem writeBitout_inputs (b : Bool) : (writeBitout s b).inputs = s.inputs := rfl

/-! writeCmpout -/

@[simp] theorem writeCmpout_params (r : Int) : (writeCmpout s r).params = s.params := rfl
@[simp] theorem writeCmpout_v (r : Int) : (writeCmpout s r).v = s.v := rfl
@[simp] theorem writeCmpout_res (r : Int) : (writeCmpout s r).res = s.res := rfl
@[simp] theorem writeCmpout_resW (r : Int) : (writeCmpout s r).resW = s.resW := rfl
@[simp] theorem writeCmpout_scalar (r : Int) : (writeCmpout s r).scalar = s.scalar := rfl
@[simp] theorem writeCmpout_bitout (r : Int) : (writeCmpout s r).bitout = s.bitout := rfl
@[simp] theorem writeCmpout_cmpout (r : Int) : (writeCmpout s r).cmpout = compareCode r := rfl
@[simp] theorem writeCmpout_err (r : Int) : (writeCmpout s r).err = s.err := rfl
@[simp] theorem writeCmpout_errs (r : Int) : (writeCmpout s r).errs = s.errs := rfl
@[simp] theorem writeCmpout_handshake (r : Int) : (writeCmpout s r).handshake = s.handshake := rfl
@[simp] theorem writeCmpout_sampled (r : Int) : (writeCmpout s r).sampled = s.sampled := rfl
@[simp] theorem writeCmpout_inputs (r : Int) : (writeCmpout s r).inputs = s.inputs := rfl

/-! completeOk -/

@[simp] theorem completeOk_params : (completeOk s).params = s.params := rfl
@[simp] theorem completeOk_v : (completeOk s).v = s.v := rfl
@[simp] theorem completeOk_res : (completeOk s).res = s.res := rfl
@[simp] theorem completeOk_resW : (completeOk s).resW = s.resW := rfl
@[simp] theorem completeOk_scalar : (completeOk s).scalar = s.scalar := rfl
@[simp] theorem completeOk_bitout : (completeOk s).bitout = s.bitout := rfl
@[simp] theorem completeOk_cmpout : (completeOk s).cmpout = s.cmpout := rfl
@[simp] theorem completeOk_err : (completeOk s).err = 0#3 := rfl
@[simp] theorem completeOk_errs : (completeOk s).errs = s.errs := rfl
@[simp] theorem completeOk_handshake : (completeOk s).handshake = .idle := rfl
@[simp] theorem completeOk_sampled : (completeOk s).sampled = s.sampled := rfl
@[simp] theorem completeOk_inputs : (completeOk s).inputs = s.inputs := rfl

/-! raiseError -/

@[simp] theorem raiseError_params (e : Error) : (raiseError s e).params = s.params := rfl
@[simp] theorem raiseError_v (e : Error) : (raiseError s e).v = s.v := rfl
@[simp] theorem raiseError_res (e : Error) : (raiseError s e).res = s.res := rfl
@[simp] theorem raiseError_resW (e : Error) : (raiseError s e).resW = s.resW := rfl
@[simp] theorem raiseError_scalar (e : Error) : (raiseError s e).scalar = s.scalar := rfl
@[simp] theorem raiseError_bitout (e : Error) : (raiseError s e).bitout = s.bitout := rfl
@[simp] theorem raiseError_cmpout (e : Error) : (raiseError s e).cmpout = s.cmpout := rfl
@[simp] theorem raiseError_err (e : Error) : (raiseError s e).err = errorCode e := rfl
@[simp] theorem raiseError_errs (e : Error) : (raiseError s e).errs = 1#1 := rfl
@[simp] theorem raiseError_handshake (e : Error) : (raiseError s e).handshake = .idle := rfl
@[simp] theorem raiseError_sampled (e : Error) : (raiseError s e).sampled = s.sampled := rfl
@[simp] theorem raiseError_inputs (e : Error) : (raiseError s e).inputs = s.inputs := rfl

/-! accept -/

@[simp] theorem accept_params (r : Request) (rest : List HostEvent) : (accept s r rest).params = s.params := rfl
@[simp] theorem accept_v (r : Request) (rest : List HostEvent) : (accept s r rest).v = s.v := rfl
@[simp] theorem accept_res (r : Request) (rest : List HostEvent) : (accept s r rest).res = s.res := rfl
@[simp] theorem accept_resW (r : Request) (rest : List HostEvent) : (accept s r rest).resW = s.resW := rfl
@[simp] theorem accept_scalar (r : Request) (rest : List HostEvent) : (accept s r rest).scalar = s.scalar := rfl
@[simp] theorem accept_bitout (r : Request) (rest : List HostEvent) : (accept s r rest).bitout = s.bitout := rfl
@[simp] theorem accept_cmpout (r : Request) (rest : List HostEvent) : (accept s r rest).cmpout = s.cmpout := rfl
@[simp] theorem accept_err (r : Request) (rest : List HostEvent) : (accept s r rest).err = s.err := rfl
@[simp] theorem accept_errs (r : Request) (rest : List HostEvent) : (accept s r rest).errs = s.errs := rfl
@[simp] theorem accept_handshake (r : Request) (rest : List HostEvent) : (accept s r rest).handshake = .busy := rfl
@[simp] theorem accept_sampled (r : Request) (rest : List HostEvent) : (accept s r rest).sampled = r := rfl
@[simp] theorem accept_inputs (r : Request) (rest : List HostEvent) : (accept s r rest).inputs = rest := rfl

/-! hardReset -/

@[simp] theorem hardReset_params (rest : List HostEvent) : (hardReset s rest).params = s.params := rfl
@[simp] theorem hardReset_v (rest : List HostEvent) : (hardReset s rest).v = 0 := rfl
@[simp] theorem hardReset_res (rest : List HostEvent) : (hardReset s rest).res = 0 := rfl
@[simp] theorem hardReset_resW (rest : List HostEvent) : (hardReset s rest).resW = s.params.n := rfl
@[simp] theorem hardReset_scalar (rest : List HostEvent) : (hardReset s rest).scalar = 0#64 := rfl
@[simp] theorem hardReset_bitout (rest : List HostEvent) : (hardReset s rest).bitout = 0#1 := rfl
@[simp] theorem hardReset_cmpout (rest : List HostEvent) : (hardReset s rest).cmpout = 0#2 := rfl
@[simp] theorem hardReset_err (rest : List HostEvent) : (hardReset s rest).err = 0#3 := rfl
@[simp] theorem hardReset_errs (rest : List HostEvent) : (hardReset s rest).errs = 0#1 := rfl
@[simp] theorem hardReset_handshake (rest : List HostEvent) : (hardReset s rest).handshake = .idle := rfl
@[simp] theorem hardReset_sampled (rest : List HostEvent) : (hardReset s rest).sampled = { cmd := 0#32, data := 0#64, b := 0 } := rfl
@[simp] theorem hardReset_inputs (rest : List HostEvent) : (hardReset s rest).inputs = rest := rfl

/-! presentWord -/

@[simp] theorem presentWord_params (c : Cmd) : (presentWord s c).params = s.params := rfl
@[simp] theorem presentWord_v (c : Cmd) : (presentWord s c).v = s.v := rfl
@[simp] theorem presentWord_res (c : Cmd) : (presentWord s c).res = s.res := rfl
@[simp] theorem presentWord_resW (c : Cmd) : (presentWord s c).resW = s.resW := rfl
@[simp] theorem presentWord_scalar (c : Cmd) : (presentWord s c).scalar = s.scalar := rfl
@[simp] theorem presentWord_bitout (c : Cmd) : (presentWord s c).bitout = s.bitout := rfl
@[simp] theorem presentWord_cmpout (c : Cmd) : (presentWord s c).cmpout = s.cmpout := rfl
@[simp] theorem presentWord_err (c : Cmd) : (presentWord s c).err = s.err := rfl
@[simp] theorem presentWord_errs (c : Cmd) : (presentWord s c).errs = s.errs := rfl
@[simp] theorem presentWord_handshake (c : Cmd) : (presentWord s c).handshake = .idle := rfl
@[simp] theorem presentWord_sampled (c : Cmd) : (presentWord s c).sampled = s.sampled := rfl
@[simp] theorem presentWord_inputs (c : Cmd) : (presentWord s c).inputs = .command { cmd := c, data := s.sampled.data, b := s.sampled.b } :: s.inputs := rfl

/-! State.resetOf -/

@[simp] theorem resetOf_params (p : Params) : (State.resetOf p).params = p := rfl
@[simp] theorem resetOf_v (p : Params) : (State.resetOf p).v = 0 := rfl
@[simp] theorem resetOf_res (p : Params) : (State.resetOf p).res = 0 := rfl
@[simp] theorem resetOf_resW (p : Params) : (State.resetOf p).resW = p.n := rfl
@[simp] theorem resetOf_scalar (p : Params) : (State.resetOf p).scalar = 0#64 := rfl
@[simp] theorem resetOf_bitout (p : Params) : (State.resetOf p).bitout = 0#1 := rfl
@[simp] theorem resetOf_cmpout (p : Params) : (State.resetOf p).cmpout = 0#2 := rfl
@[simp] theorem resetOf_err (p : Params) : (State.resetOf p).err = 0#3 := rfl
@[simp] theorem resetOf_errs (p : Params) : (State.resetOf p).errs = 0#1 := rfl
@[simp] theorem resetOf_handshake (p : Params) : (State.resetOf p).handshake = .idle := rfl
@[simp] theorem resetOf_sampled (p : Params) : (State.resetOf p).sampled = { cmd := 0#32, data := 0#64, b := 0 } := rfl
@[simp] theorem resetOf_inputs (p : Params) : (State.resetOf p).inputs = [] := rfl

end Sys2Proof.Machine
end

