-- ==== Sys2Proof/Laws/Units.lean ====
section
/-! SUPPORT. What the storage operations of Machine/Units.lean do, once each: cite these instead of unfolding. `ub` is
`UNIT_BITS`; an image is `Bounded` when each unit fits its width. -/

namespace Sys2Proof.Machine

/-- Every unit of an image fits `ub` bits (spec/00_scope.md R13). -/
def Bounded (ub : Nat) (us : List Nat) : Prop := ∀ u ∈ us, u < 2 ^ ub

@[simp] theorem bounded_nil (ub : Nat) : Bounded ub [] := fun _ h => absurd h List.not_mem_nil

@[simp] theorem bounded_cons (ub u : Nat) (us : List Nat) : Bounded ub (u :: us) ↔ u < 2 ^ ub ∧ Bounded ub us :=
  List.forall_mem_cons

theorem unitBits_pos (p : Params) : 0 < unitBits p := by
  unfold unitBits; split <;> omega

theorem unitBits_cases (p : Params) :
    (p.granularity = .byte ∧ unitBits p = 8) ∨ (p.granularity = .word ∧ unitBits p = 64) := by
  unfold unitBits; cases p.granularity <;> simp

/-! Unit counts -/

theorem le_unitsFor_mul {ub : Nat} (h : 0 < ub) (w : Nat) : w ≤ ub * unitsFor ub w := by
  have h1 := Nat.div_add_mod (w + (ub - 1)) ub
  have h2 := Nat.mod_lt (w + (ub - 1)) h
  show w ≤ ub * ((w + (ub - 1)) / ub)
  omega

theorem unitsFor_mul_of_full {ub w : Nat} (h : 0 < ub) (hw : w % ub = 0) : ub * unitsFor ub w = w := by
  obtain ⟨q, rfl⟩ := Nat.dvd_of_mod_eq_zero hw
  show ub * ((ub * q + (ub - 1)) / ub) = ub * q
  rw [Nat.mul_add_div h, Nat.div_eq_of_lt (by omega), Nat.add_zero]

theorem unitsFor_of_partial {ub w : Nat} (h : 0 < ub) (hw : w % ub ≠ 0) : unitsFor ub w = w / ub + 1 := by
  have h1 := Nat.div_add_mod w ub
  have h2 := Nat.mod_lt w h
  have h3 : w % ub - 1 < ub := by omega
  show (w + (ub - 1)) / ub = w / ub + 1
  rw [show w + (ub - 1) = ub * (w / ub) + (ub * 1 + (w % ub - 1)) by omega, Nat.mul_add_div h, Nat.mul_add_div h,
    Nat.div_eq_of_lt h3]

theorem unitsFor_mono {ub w w' : Nat} (h : w ≤ w') : unitsFor ub w ≤ unitsFor ub w' :=
  Nat.div_le_div_right (by omega)

theorem n_le_capacity (p : Params) : p.n ≤ capacity p := by
  rw [capacity, Nat.mul_comm]
  exact le_unitsFor_mul (unitBits_pos p) p.n

/-! Images and values -/

@[simp] theorem units_length (ub c v : Nat) : (units ub c v).length = c := by
  induction c with
  | zero => rfl
  | succ c ih => simp [units, ih]

theorem units_bounded (ub c v : Nat) : Bounded ub (units ub c v) := by
  induction c with
  | zero => simp [units]
  | succ c ih =>
    simp only [units, bounded_cons]
    exact ⟨Nat.mod_lt _ (Nat.two_pow_pos ub), ih⟩

theorem value_lt {ub : Nat} {us : List Nat} (h : Bounded ub us) : value ub us < 2 ^ (ub * us.length) := by
  induction us with
  | nil => simp [value]
  | cons u us ih =>
    have hu : u < 2 ^ ub := h u (by simp)
    have ih := ih fun x hx => h x (by simp [hx])
    have hp : 2 ^ (ub * (us.length + 1)) = 2 ^ ub * 2 ^ (ub * us.length) := by
      rw [Nat.mul_succ, Nat.add_comm, Nat.pow_add]
    simp only [value, List.length_cons, hp]
    calc u * 2 ^ (ub * us.length) + value ub us < (u + 1) * 2 ^ (ub * us.length) := by
          rw [Nat.add_mul]; omega
      _ ≤ 2 ^ ub * 2 ^ (ub * us.length) := Nat.mul_le_mul_right _ hu

/-- The value of a `c`-unit image is the number modulo the image's capacity. -/
theorem value_units (ub c v : Nat) : value ub (units ub c v) = v % 2 ^ (ub * c) := by
  induction c with
  | zero => simp [units, value, Nat.mod_one]
  | succ c ih =>
    simp only [units, value, units_length, ih]
    rw [Nat.mul_succ, Nat.pow_add, Nat.mod_mul]
    ring

theorem value_units_of_lt {ub c v : Nat} (h : v < 2 ^ (ub * c)) : value ub (units ub c v) = v := by
  rw [value_units, Nat.mod_eq_of_lt h]

/-- Unit `j` from the least-significant end. -/
theorem lsu_cons (u : Nat) (us : List Nat) (j : Nat) :
    lsu (u :: us) j = if j = us.length then u else lsu us j := by
  unfold lsu
  rcases Nat.lt_trichotomy j us.length with h | h | h
  · have e : us.length - j = (us.length - 1 - j) + 1 := by omega
    simp [Nat.ne_of_lt h, h, Nat.lt_succ_of_lt h, e]
  · subst h; simp
  · rw [if_neg (by simp; omega), if_neg (by omega), if_neg (by omega)]

theorem lsu_of_ge {us : List Nat} {j : Nat} (h : us.length ≤ j) : lsu us j = 0 := by
  simp [lsu, Nat.not_lt.mpr h]

/-- Unit `j` of an image, counted from the least-significant end (spec/00_scope.md R13). -/
theorem lsu_units (ub c v j : Nat) : lsu (units ub c v) j = if j < c then v / 2 ^ (ub * j) % 2 ^ ub else 0 := by
  induction c with
  | zero => simp [units, lsu]
  | succ c ih =>
    rw [units, lsu_cons, units_length, ih]
    rcases Nat.lt_trichotomy j c with h | h | h
    · simp [Nat.ne_of_lt h, h, Nat.lt_succ_of_lt h]
    · subst h; simp
    · rw [if_neg (by omega), if_neg (by omega), if_neg (by omega)]

/-- Bit `p` of a value is bit `p mod ub` of unit `p div ub` from the least-significant end (spec/00_scope.md R13). -/
theorem value_testBit {ub : Nat} (hub : 0 < ub) {us : List Nat} (h : Bounded ub us) (p : Nat) :
    (value ub us).testBit p = (lsu us (p / ub)).testBit (p % ub) := by
  induction us with
  | nil => simp [value, lsu]
  | cons u us ih =>
    have hu : u < 2 ^ ub := h u (by simp)
    have hus : Bounded ub us := fun x hx => h x (by simp [hx])
    have hv := value_lt hus
    rw [value, Nat.mul_comm u, Nat.testBit_two_pow_mul_add _ hv, lsu_cons, ih hus]
    have hdm := Nat.div_add_mod p ub
    have hml := Nat.mod_lt p hub
    by_cases hlt : p < ub * us.length
    · have : p / ub ≠ us.length := by
        have : p / ub < us.length := Nat.div_lt_of_lt_mul hlt
        omega
      simp [hlt, this]
    · have hge : us.length ≤ p / ub := (Nat.le_div_iff_mul_le hub).mpr (by rw [Nat.mul_comm]; omega)
      rw [if_neg hlt]
      by_cases he : p / ub = us.length
      · rw [if_pos he]
        congr 1
        rw [he] at hdm
        omega
      · rw [if_neg he, lsu_of_ge hge, Nat.zero_testBit]
        apply Nat.testBit_lt_two_pow
        refine Nat.lt_of_lt_of_le hu (Nat.pow_le_pow_right (by omega) ?_)
        have h2 : ub * (us.length + 1) ≤ ub * (p / ub) := Nat.mul_le_mul_left _ (by omega)
        rw [Nat.mul_succ] at h2
        omega

/-- The image of a value is the image it came from: images of one length and values below the capacity correspond one
to one (spec/00_scope.md R13). -/
theorem units_value {ub : Nat} (hub : 0 < ub) : ∀ us : List Nat, Bounded ub us →
    units ub us.length (value ub us) = us
  | [], _ => rfl
  | u :: us, h => by
    rw [bounded_cons] at h
    have hv := value_lt h.2
    have low : ∀ c x y, c ≤ us.length → units ub c (x * 2 ^ (ub * us.length) + y) = units ub c y := by
      intro c
      induction c with
      | zero => intros; rfl
      | succ c ih =>
        intro x y hc
        obtain ⟨k, hk⟩ : ∃ k, us.length = c + 1 + k := ⟨us.length - (c + 1), by omega⟩
        rw [units, units, ih x y (by omega), hk,
          show x * 2 ^ (ub * (c + 1 + k)) + y = y + 2 ^ (ub * c) * (2 ^ ub * (x * 2 ^ (ub * k))) by
            rw [show ub * (c + 1 + k) = ub * c + (ub + ub * k) by ring, Nat.pow_add, Nat.pow_add]; ring,
          Nat.add_mul_div_left _ _ (Nat.two_pow_pos _), Nat.add_mul_mod_self_left]
    rw [List.length_cons, units, value, low us.length u _ le_rfl, units_value hub us h.2, Nat.add_comm,
      Nat.add_mul_div_right _ _ (Nat.two_pow_pos _), Nat.div_eq_of_lt hv, Nat.zero_add, Nat.mod_eq_of_lt h.1]

/-! The truncation mask -/

@[simp] theorem maskTop_length (mask : Nat) (us : List Nat) : (maskTop mask us).length = us.length := by
  cases us <;> rfl

theorem maskTop_bounded {ub : Nat} (mask : Nat) {us : List Nat} (h : Bounded ub us) : Bounded ub (maskTop mask us) := by
  cases us with
  | nil => exact h
  | cons u us =>
    rw [bounded_cons] at h
    exact (bounded_cons ..).mpr ⟨Nat.lt_of_le_of_lt Nat.and_le_left h.1, h.2⟩

theorem value_maskTop_cons (ub u : Nat) (us : List Nat) (r : Nat) :
    value ub (maskTop (2 ^ r - 1) (u :: us)) = u % 2 ^ r * 2 ^ (ub * us.length) + value ub us := by
  simp [maskTop, value, Nat.and_two_pow_sub_one_eq_mod]

/-- The truncation mask over its storage is the number modulo `2^w` (spec/41_truncate_fill.md R80). -/
theorem cutAt_eq_mod {ub w v : Nat} (hub : 0 < ub) (hv : v < 2 ^ (ub * unitsFor ub w)) :
    cutAt ub w v = v % 2 ^ w := by
  unfold cutAt
  split
  · next h => rw [Nat.mod_eq_of_lt]; rwa [unitsFor_mul_of_full hub h] at hv
  · next h =>
    rw [unitsFor_of_partial hub h, units, value_maskTop_cons, units_length, value_units]
    have hr := Nat.mod_lt w hub
    have hw := Nat.div_add_mod w ub
    rw [Nat.mod_mod_of_dvd _ (Nat.pow_dvd_pow 2 (Nat.le_of_lt hr))]
    conv_rhs => rw [← hw, Nat.pow_add, Nat.mod_mul]
    ring

theorem cut_eq_mod {p : Params} {v : Nat} (hv : v < 2 ^ capacity p) : cut p v = v % 2 ^ p.n :=
  cutAt_eq_mod (unitBits_pos p) (by rwa [Nat.mul_comm])

theorem cut_of_lt {p : Params} {v : Nat} (hv : v < 2 ^ p.n) : cut p v = v := by
  rw [cut_eq_mod (Nat.lt_of_lt_of_le hv (Nat.pow_le_pow_right (by omega) (n_le_capacity p))), Nat.mod_eq_of_lt hv]

/-! Adder and subtractor -/

/-- The ripple adder is exact: sum and carry together are the sum of the operands (spec/43_add_sub.md R89). -/
theorem addCarry_spec (ub : Nat) : ∀ (a b : List Nat), a.length = b.length →
    (addCarry ub a b).1.length = a.length ∧ Bounded ub (addCarry ub a b).1 ∧
    value ub (addCarry ub a b).1 + (addCarry ub a b).2 * 2 ^ (ub * a.length) = value ub a + value ub b
  | [], [], _ => by simp [addCarry, value]
  | a :: as, b :: bs, h => by
    have hl : as.length = bs.length := by simpa using h
    obtain ⟨h1, h2, h3⟩ := addCarry_spec ub as bs hl
    refine ⟨by simp [addCarry, h1], ?_, ?_⟩
    · simp only [addCarry, bounded_cons]
      exact ⟨Nat.mod_lt _ (Nat.two_pow_pos ub), h2⟩
    · simp only [addCarry, value, h1, List.length_cons, ← hl]
      have hp : 2 ^ (ub * (as.length + 1)) = 2 ^ ub * 2 ^ (ub * as.length) := by
        rw [Nat.mul_succ, Nat.add_comm, Nat.pow_add]
      have hdm := Nat.div_add_mod (a + b + (addCarry ub as bs).2) (2 ^ ub)
      generalize (addCarry ub as bs).2 = c at *
      generalize value ub (addCarry ub as bs).1 = r at *
      generalize (a + b + c) / 2 ^ ub = q at *
      generalize (a + b + c) % 2 ^ ub = m at *
      rw [hp]
      calc m * 2 ^ (ub * as.length) + r + q * (2 ^ ub * 2 ^ (ub * as.length))
          = (2 ^ ub * q + m) * 2 ^ (ub * as.length) + r := by ring
        _ = (a + b) * 2 ^ (ub * as.length) + (r + c * 2 ^ (ub * as.length)) := by rw [hdm]; ring
        _ = _ := by rw [h3]; ring
  | [], _ :: _, h => by simp at h
  | _ :: _, [], h => by simp at h

/-- The ripple subtractor is exact: difference and subtrahend are the minuend with the borrow (R90). -/
theorem subBorrow_spec (ub : Nat) : ∀ (a b : List Nat), a.length = b.length → Bounded ub a → Bounded ub b →
    (subBorrow ub a b).1.length = a.length ∧ Bounded ub (subBorrow ub a b).1 ∧ (subBorrow ub a b).2 ≤ 1 ∧
    value ub (subBorrow ub a b).1 + value ub b = value ub a + (subBorrow ub a b).2 * 2 ^ (ub * a.length)
  | [], [], _, _, _ => by simp [subBorrow, value]
  | a :: as, b :: bs, h, ha, hb => by
    have hl : as.length = bs.length := by simpa using h
    have ha' : a < 2 ^ ub := ha a (by simp)
    have hb' : b < 2 ^ ub := hb b (by simp)
    obtain ⟨h1, h2, h3, h4⟩ :=
      subBorrow_spec ub as bs hl (fun x hx => ha x (by simp [hx])) (fun x hx => hb x (by simp [hx]))
    have hp : 2 ^ (ub * (as.length + 1)) = 2 ^ ub * 2 ^ (ub * as.length) := by
      rw [Nat.mul_succ, Nat.add_comm, Nat.pow_add]
    simp only [subBorrow]
    generalize (subBorrow ub as bs).2 = c at *
    generalize (subBorrow ub as bs).1 = rs at *
    split
    · next ht =>
      obtain ⟨u, hu⟩ : ∃ u : Nat, ((a : Int) - b - c + 2 ^ ub).toNat = u := ⟨_, rfl⟩
      have hu2 : u + b + c = a + 2 ^ ub := by
        have : ((2 ^ ub : Nat) : Int) = 2 ^ ub := by push_cast; rfl
        omega
      refine ⟨by simp [h1], ?_, by simp, ?_⟩
      · simp only [bounded_cons]; exact ⟨by omega, h2⟩
      · simp only [value, hu, h1, List.length_cons, ← hl, hp]
        calc u * 2 ^ (ub * as.length) + value ub rs + (b * 2 ^ (ub * as.length) + value ub bs)
            = (u + b) * 2 ^ (ub * as.length) + (value ub rs + value ub bs) := by ring
          _ = (u + b + c) * 2 ^ (ub * as.length) + value ub as := by rw [h4]; ring
          _ = _ := by rw [hu2]; ring
    · next ht =>
      obtain ⟨u, hu⟩ : ∃ u : Nat, ((a : Int) - b - c).toNat = u := ⟨_, rfl⟩
      have hu2 : u + b + c = a := by omega
      refine ⟨by simp [h1], ?_, by simp, ?_⟩
      · simp only [bounded_cons]; exact ⟨by omega, h2⟩
      · simp only [value, hu, h1, List.length_cons, ← hl]
        calc u * 2 ^ (ub * as.length) + value ub rs + (b * 2 ^ (ub * as.length) + value ub bs)
            = (u + b) * 2 ^ (ub * as.length) + (value ub rs + value ub bs) := by ring
          _ = (u + b + c) * 2 ^ (ub * as.length) + value ub as := by rw [h4]; ring
          _ = _ := by rw [hu2]; ring
  | [], _ :: _, h, _, _ => by simp at h
  | _ :: _, [], h, _, _ => by simp at h

/-! Logic -/

theorem logicUnits_length (op : Nat → Nat → Nat) (a b : List Nat) (c : Nat) :
    (logicUnits op a b c).length = c := by
  induction c with
  | zero => rfl
  | succ c ih => simp [logicUnits, ih]

theorem lsu_logicUnits (op : Nat → Nat → Nat) (a b : List Nat) (c j : Nat) :
    lsu (logicUnits op a b c) j = if j < c then op (lsu a j) (lsu b j) else 0 := by
  induction c with
  | zero => simp [logicUnits, lsu]
  | succ c ih =>
    rw [logicUnits, lsu_cons, logicUnits_length, ih]
    rcases Nat.lt_trichotomy j c with h | h | h
    · simp [Nat.ne_of_lt h, h, Nat.lt_succ_of_lt h]
    · subst h; simp
    · rw [if_neg (by omega), if_neg (by omega), if_neg (by omega)]

theorem lsu_lt {ub : Nat} {us : List Nat} (h : Bounded ub us) (j : Nat) : lsu us j < 2 ^ ub := by
  unfold lsu
  split
  · next hj =>
    rw [List.getD_eq_getElem _ _ (by omega)]
    exact h _ (List.getElem_mem _)
  · exact Nat.two_pow_pos ub

theorem logicUnits_bounded {ub : Nat} {op : Nat → Nat → Nat} {a b : List Nat}
    (hop : ∀ x y, x < 2 ^ ub → y < 2 ^ ub → op x y < 2 ^ ub) (ha : Bounded ub a) (hb : Bounded ub b) (c : Nat) :
    Bounded ub (logicUnits op a b c) := by
  induction c with
  | zero => simp [logicUnits]
  | succ c ih =>
    simp only [logicUnits, bounded_cons]
    exact ⟨hop _ _ (lsu_lt ha c) (lsu_lt hb c), ih⟩

/-- A number fits the storage of its width. -/
theorem lt_storage {ub w x : Nat} (hub : 0 < ub) (hx : x < 2 ^ w) : x < 2 ^ (ub * unitsFor ub w) :=
  Nat.lt_of_lt_of_le hx (Nat.pow_le_pow_right (by omega) (le_unitsFor_mul hub w))

/-- A bit of an image: the number's own bit, since the image holds the whole number. -/
theorem lsu_units_testBit {ub c x : Nat} (hub : 0 < ub) (hx : x < 2 ^ (ub * c)) (p : Nat) :
    (lsu (units ub c x) (p / ub)).testBit (p % ub) = x.testBit p := by
  rw [← value_testBit hub (units_bounded ub c x), value_units_of_lt hx]

/-- AND narrows to the smaller operand and is the bitwise AND of the values (spec/44_logic.md R96). -/
theorem vecAnd_eq {ub x wx y wy : Nat} (hub : 0 < ub) (hx : x < 2 ^ wx) (hy : y < 2 ^ wy) :
    vecAnd ub x wx y wy = (x &&& y, min wx wy) := by
  unfold vecAnd
  refine Prod.ext ?_ rfl
  refine Nat.eq_of_testBit_eq fun p => ?_
  have hX := lt_storage hub hx
  have hY := lt_storage hub hy
  rw [value_testBit hub (logicUnits_bounded (fun a b ha _ => Nat.lt_of_le_of_lt Nat.and_le_left ha)
    (units_bounded _ _ _) (units_bounded _ _ _) _), lsu_logicUnits, Nat.testBit_and]
  split
  · rw [Nat.testBit_and, lsu_units_testBit hub hX, lsu_units_testBit hub hY]
  · next h =>
    rw [← lsu_units_testBit hub hX, ← lsu_units_testBit hub hY, Nat.zero_testBit]
    rcases Nat.le_total (unitsFor ub wx) (unitsFor ub wy) with hle | hle
    · rw [lsu_of_ge (us := units ub (unitsFor ub wx) x) (by rw [units_length]; omega)]; simp
    · rw [lsu_of_ge (us := units ub (unitsFor ub wy) y) (by rw [units_length]; omega)]; simp

/-- The walk over the longer operand's units, for an operation that is bitwise and keeps zero. -/
theorem value_logicUnits_max {ub x wx y wy : Nat} {op : Nat → Nat → Nat} {f : Bool → Bool → Bool}
    (hub : 0 < ub) (hx : x < 2 ^ wx) (hy : y < 2 ^ wy)
    (hop : ∀ a b, a < 2 ^ ub → b < 2 ^ ub → op a b < 2 ^ ub)
    (hbit : ∀ a b i, (op a b).testBit i = f (a.testBit i) (b.testBit i)) (hf : f false false = false) :
    value ub (logicUnits op (units ub (unitsFor ub wx) x) (units ub (unitsFor ub wy) y)
      (max (unitsFor ub wx) (unitsFor ub wy))) = op x y := by
  refine Nat.eq_of_testBit_eq fun p => ?_
  have hX := lt_storage hub hx
  have hY := lt_storage hub hy
  rw [value_testBit hub (logicUnits_bounded hop (units_bounded _ _ _) (units_bounded _ _ _) _), lsu_logicUnits, hbit]
  split
  · rw [hbit, lsu_units_testBit hub hX, lsu_units_testBit hub hY]
  · next h =>
    rw [← lsu_units_testBit hub hX, ← lsu_units_testBit hub hY,
      lsu_of_ge (us := units ub (unitsFor ub wx) x) (by rw [units_length]; omega),
      lsu_of_ge (us := units ub (unitsFor ub wy) y) (by rw [units_length]; omega)]
    simp [hf]

/-- OR widens to the larger operand and is the bitwise OR of the values (R97). -/
theorem vecOr_eq {ub x wx y wy : Nat} (hub : 0 < ub) (hx : x < 2 ^ wx) (hy : y < 2 ^ wy) :
    vecOr ub x wx y wy = (x ||| y, max wx wy) :=
  Prod.ext (value_logicUnits_max (f := (· || ·)) hub hx hy (fun _ _ ha hb => Nat.or_lt_two_pow ha hb)
    (fun _ _ _ => Nat.testBit_or ..) rfl) rfl

/-- XOR widens to the larger operand and is the bitwise XOR of the values (R98). -/
theorem vecXor_eq {ub x wx y wy : Nat} (hub : 0 < ub) (hx : x < 2 ^ wx) (hy : y < 2 ^ wy) :
    vecXor ub x wx y wy = (x ^^^ y, max wx wy) :=
  Prod.ext (value_logicUnits_max (f := fun a b => a ^^ b) hub hx hy (fun _ _ ha hb => Nat.xor_lt_two_pow ha hb)
    (fun _ _ _ => Nat.testBit_xor ..) rfl) rfl

theorem xor_ones {ub u : Nat} (h : u < 2 ^ ub) : u ^^^ (2 ^ ub - 1) = 2 ^ ub - 1 - u := by
  refine Nat.eq_of_testBit_eq fun i => ?_
  rw [Nat.testBit_xor, Nat.testBit_two_pow_sub_one, show 2 ^ ub - 1 - u = 2 ^ ub - (u + 1) by omega,
    Nat.testBit_two_pow_sub_succ h]
  by_cases hi : i < ub
  · simp [hi]
  · have := Nat.testBit_lt_two_pow (x := u) (i := i) (Nat.lt_of_lt_of_le h (Nat.pow_le_pow_right (by omega) (by omega)))
    simp [hi, this]

theorem value_invert (ub : Nat) : ∀ us : List Nat, Bounded ub us →
    value ub (us.map (· ^^^ (2 ^ ub - 1))) + value ub us + 1 = 2 ^ (ub * us.length)
  | [], _ => by simp [value]
  | u :: us, h => by
    have hu : u < 2 ^ ub := h u (by simp)
    have ih := value_invert ub us fun x hx => h x (by simp [hx])
    have hp : 2 ^ (ub * (us.length + 1)) = 2 ^ ub * 2 ^ (ub * us.length) := by
      rw [Nat.mul_succ, Nat.add_comm, Nat.pow_add]
    obtain ⟨k, hk⟩ : ∃ k, 2 ^ ub - 1 - u = k := ⟨_, rfl⟩
    have hk2 : k + u + 1 = 2 ^ ub := by omega
    simp only [List.map_cons, value, List.length_map, List.length_cons, xor_ones hu, hk, hp]
    calc k * 2 ^ (ub * us.length) + value ub (us.map (· ^^^ (2 ^ ub - 1))) +
          (u * 2 ^ (ub * us.length) + value ub us) + 1
        = (k + u) * 2 ^ (ub * us.length) + (value ub (us.map (· ^^^ (2 ^ ub - 1))) + value ub us + 1) := by ring
      _ = (k + u + 1) * 2 ^ (ub * us.length) := by rw [ih]; ring
      _ = _ := by rw [hk2]

/-- NOT keeps the width and complements within it (R99). -/
theorem vecNot_eq {ub x w : Nat} (hub : 0 < ub) (hx : x < 2 ^ w) : vecNot ub x w = (2 ^ w - 1 - x, w) := by
  unfold vecNot
  refine Prod.ext ?_ rfl
  have hX := lt_storage hub hx
  have h := value_invert ub (units ub (unitsFor ub w) x) (units_bounded _ _ _)
  rw [units_length, value_units_of_lt hX] at h
  show cutAt ub w _ = _
  rw [cutAt_eq_mod hub (by omega)]
  obtain ⟨q, hq⟩ : 2 ^ w ∣ 2 ^ (ub * unitsFor ub w) := Nat.pow_dvd_pow 2 (le_unitsFor_mul hub w)
  have hq1 : 1 ≤ q := by
    rcases Nat.eq_zero_or_pos q with rfl | h0
    · rw [Nat.mul_zero] at hq; exact absurd hq (Nat.two_pow_pos _).ne'
    · exact h0
  obtain ⟨q', rfl⟩ : ∃ q', q = q' + 1 := ⟨q - 1, by omega⟩
  rw [hq, Nat.mul_succ] at h
  rw [show value ub ((units ub (unitsFor ub w) x).map (· ^^^ (2 ^ ub - 1))) = 2 ^ w - 1 - x + 2 ^ w * q' by omega,
    Nat.add_mul_mod_self_left, Nat.mod_eq_of_lt (by omega)]

/-! The barrel -/

theorem bitSum_lt (f : Nat → Bool) (c : Nat) : bitSum f c < 2 ^ c := by
  induction c with
  | zero => simp [bitSum]
  | succ c ih =>
    have : (f c).toNat ≤ 1 := Bool.toNat_le _
    have h2 : (f c).toNat * 2 ^ c ≤ 2 ^ c := by
      simpa using Nat.mul_le_mul_right (2 ^ c) this
    rw [bitSum, Nat.pow_succ]; omega

theorem bitSum_testBit (f : Nat → Bool) (c p : Nat) : (bitSum f c).testBit p = (decide (p < c) && f p) := by
  induction c with
  | zero => simp [bitSum]
  | succ c ih =>
    rw [bitSum, Nat.add_comm, Nat.mul_comm, Nat.testBit_two_pow_mul_add _ (bitSum_lt f c), ih]
    rcases Nat.lt_trichotomy p c with h | h | h
    · simp [h, Nat.lt_succ_of_lt h]
    · subst h; cases f p <;> simp
    · have h1 : ¬ p < c := by omega
      have h2 : ¬ p < c + 1 := by omega
      obtain ⟨k, hk⟩ : ∃ k, p - c = k + 1 := ⟨p - c - 1, by omega⟩
      rw [if_neg h1, hk]
      cases f c <;> simp [h2, Nat.testBit_succ]

/-- Each destination bit of the barrel, from its source bit (spec/45_shift.md R102). -/
theorem barrel_testBit (cap v k : Nat) (dir : ShiftDir) (p : Nat) :
    (barrel cap v k dir).testBit p = (decide (p < cap) && barrelBit cap v k dir p) :=
  bitSum_testBit _ cap p

theorem barrel_lt (cap v k : Nat) (dir : ShiftDir) : barrel cap v k dir < 2 ^ cap := bitSum_lt _ cap

/-! The comparator -/

/-- The scan orders images of one length as their values (spec/46_compare.md R107). -/
theorem compareUnits_spec (ub : Nat) : ∀ (a b : List Nat), a.length = b.length → Bounded ub a → Bounded ub b →
    compareUnits a b =
      if value ub a < value ub b then -1 else if value ub a = value ub b then 0 else 1
  | [], [], _, _, _ => by simp [compareUnits, value]
  | a :: as, b :: bs, h, ha, hb => by
    have hl : as.length = bs.length := by simpa using h
    have ha' : Bounded ub as := fun x hx => ha x (by simp [hx])
    have hb' : Bounded ub bs := fun x hx => hb x (by simp [hx])
    have ih := compareUnits_spec ub as bs hl ha' hb'
    have va := value_lt ha'
    have vb := value_lt hb'
    rw [← hl] at vb
    rcases Nat.lt_trichotomy a b with hab | hab | hab
    · have hle : (a + 1) * 2 ^ (ub * as.length) ≤ b * 2 ^ (ub * as.length) := Nat.mul_le_mul_right _ hab
      rw [Nat.add_mul] at hle
      have : value ub (a :: as) < value ub (b :: bs) := by simp only [value, ← hl]; omega
      simp [compareUnits, this, Nat.ne_of_lt hab, hab]
    · subst hab
      rw [compareUnits, if_neg (by simp), ih]
      simp only [value, ← hl, Nat.add_lt_add_iff_left, Nat.add_left_cancel_iff]
    · have hle : (b + 1) * 2 ^ (ub * as.length) ≤ a * 2 ^ (ub * as.length) := Nat.mul_le_mul_right _ hab
      rw [Nat.add_mul] at hle
      have : value ub (b :: bs) < value ub (a :: as) := by simp only [value, ← hl]; omega
      rw [compareUnits, if_pos (Nat.ne_of_gt hab), if_neg (by omega), if_neg (by omega), if_neg (by omega)]
  | [], _ :: _, h, _, _ => by simp at h
  | _ :: _, [], h, _, _ => by simp at h

/-- The comparator orders its operands as natural numbers, whatever their widths (spec/46_compare.md R108). -/
theorem vecCompare_eq {ub x wx y wy : Nat} (hub : 0 < ub) (hx : x < 2 ^ wx) (hy : y < 2 ^ wy) :
    vecCompare ub x wx y wy = if x < y then -1 else if x = y then 0 else 1 := by
  have grow : ∀ {z w c : Nat}, z < 2 ^ w → unitsFor ub w ≤ c → z < 2 ^ (ub * c) := fun hz hc =>
    Nat.lt_of_lt_of_le (lt_storage hub hz) (Nat.pow_le_pow_right (by omega) (Nat.mul_le_mul_left _ hc))
  rw [vecCompare, compareUnits_spec ub _ _ (by simp) (units_bounded _ _ _) (units_bounded _ _ _),
    value_units_of_lt (grow hx (Nat.le_max_left ..)), value_units_of_lt (grow hy (Nat.le_max_right ..))]

end Sys2Proof.Machine
end

