-- ==== Sys2Proof/Laws/Ops.lean ====
section
/-! SUPPORT. What the operand forms, the register writes and the small helpers of the families do, once each. -/

namespace Sys2Proof.Machine

/-! Operands -/

theorem sint64_eq_toInt (x : Scalar) : sint64 x = x.toInt := by
  rw [sint64, BitVec.toInt_eq_toNat_cond]
  split <;> split <;> first | rfl | omega

theorem sint64_bounds (x : Scalar) : -2 ^ 63 ≤ sint64 x ∧ sint64 x < 2 ^ 63 := by
  have := x.isLt
  unfold sint64; split <;> constructor <;> omega

theorem operandSigned_natAbs_le (s : State) : (operandSigned s).natAbs ≤ 2 ^ 63 := by
  have := sint64_bounds s.sampled.data
  unfold operandSigned; omega

theorem operandB_lt (s : State) : operandB s < 2 ^ s.params.nb := Nat.mod_lt _ (Nat.two_pow_pos _)

theorem operandPattern_lt (s : State) (w : Nat) : operandPattern s w < 2 ^ w := Nat.mod_lt _ (Nat.two_pow_pos _)

/-- The supported LOAD widths are 8, 16, 32 and 64, for codes 0 to 3 (spec/30_encoding.md R60). -/
theorem loadWidth_cases (w : BitVec 3) :
    (w = 0#3 ∧ loadWidth w = some 8) ∨ (w = 1#3 ∧ loadWidth w = some 16) ∨ (w = 2#3 ∧ loadWidth w = some 32) ∨
    (w = 3#3 ∧ loadWidth w = some 64) ∨ (4#3 ≤ w ∧ loadWidth w = none) := by
  revert w; decide

/-! Register writes -/

/-- A write of a number within the storage leaves it modulo `2^N` in `V` (spec/41_truncate_fill.md R80, R82). -/
theorem writeV_v_of_lt {s : State} {x : Nat} (h : x < 2 ^ capacity s.params) :
    (writeV s x).v = x % 2 ^ s.params.n := cut_eq_mod h

theorem errorCode_ne_zero (e : Error) : errorCode e ≠ 0#3 := by cases e <;> decide

theorem errorCode_ne_seven (e : Error) : errorCode e ≠ 7#3 := by cases e <;> decide

theorem storageUnits_length (s : State) : (storageUnits s).length = unitCount s.params := units_length _ _ _

theorem storageUnits_bounded (s : State) : Bounded (unitBits s.params) (storageUnits s) := units_bounded _ _ _

/-- The storage of a vector within its width represents it (spec/00_scope.md R13). -/
theorem value_storageUnits {s : State} (h : s.v < 2 ^ s.params.n) :
    value (unitBits s.params) (storageUnits s) = s.v :=
  value_units_of_lt (lt_storage (unitBits_pos s.params) h)

/-! Helpers of the families -/

theorem putBit_testBit (v i : Nat) (f : Bool) (j : Nat) :
    (putBit v i f).testBit j = if j = i then f else v.testBit j := by
  rw [putBit, Nat.testBit_or, Nat.testBit_xor, Nat.testBit_and, Nat.testBit_two_pow]
  cases f
  · by_cases h : i = j
    · subst h; simp
    · simp [h, Ne.symm h]
  · rw [Bool.toNat_true, Nat.one_mul, Nat.testBit_two_pow]
    by_cases h : i = j
    · subst h; simp
    · simp [h, Ne.symm h]

theorem putBit_lt {v i n : Nat} (f : Bool) (hv : v < 2 ^ n) (hi : i < n) : putBit v i f < 2 ^ n := by
  refine Nat.lt_pow_two_of_testBit _ fun j hj => ?_
  rw [putBit_testBit, if_neg (by omega)]
  exact Nat.testBit_lt_two_pow (Nat.lt_of_lt_of_le hv (Nat.pow_le_pow_right (by omega) hj))

theorem value_replicate_ones (ub c : Nat) : value ub (List.replicate c (2 ^ ub - 1)) = 2 ^ (ub * c) - 1 := by
  induction c with
  | zero => simp [value]
  | succ c ih =>
    have h1 : 1 ≤ 2 ^ ub := Nat.one_le_two_pow
    have h2 : 1 ≤ 2 ^ (ub * c) := Nat.one_le_two_pow
    have h3 : 2 ^ (ub * c) ≤ 2 ^ ub * 2 ^ (ub * c) := Nat.le_mul_of_pos_left _ h1
    rw [List.replicate_succ, value, ih, List.length_replicate, Nat.sub_mul, Nat.mul_succ, Nat.add_comm (ub * c),
      Nat.pow_add]
    omega

theorem value_replicate_zero (ub c : Nat) : value ub (List.replicate c 0) = 0 := by
  induction c with
  | zero => rfl
  | succ c ih => simp [List.replicate_succ, value, ih]

/-- What FILL writes to the storage: the all-ones or the all-zero number of `CAP` bits (spec/41_truncate_fill.md R84). -/
theorem value_fillUnits (p : Params) (f : Bool) :
    value (unitBits p) (fillUnits p f) = if f then 2 ^ capacity p - 1 else 0 := by
  cases f
  · exact value_replicate_zero _ _
  · rw [fillUnits, if_pos rfl, value_replicate_ones, if_pos rfl, capacity, Nat.mul_comm]

/-- READ is legal exactly for the native capacities (spec/40_construct_convert.md R76). -/
theorem readLegal_iff (p : Params) :
    readLegal p = true ↔ capacity p = 8 ∨ capacity p = 16 ∨ capacity p = 32 ∨ capacity p = 64 := by
  simp [readLegal, or_assoc]

theorem narrowed_lt (p : Params) (m : Nat) : narrowed p m < 2 ^ capacity p := by
  unfold narrowed tooWide
  split
  · exact Nat.mod_lt _ (Nat.two_pow_pos _)
  · next h => simpa using h

theorem narrowed_mod (p : Params) (m : Nat) : narrowed p m % 2 ^ capacity p = m % 2 ^ capacity p := by
  unfold narrowed
  split <;> simp

/-! Views -/

theorem bitsOf_length (v w : Nat) : (bitsOf v w).length = w := by
  induction w with
  | zero => rfl
  | succ w ih => simp [bitsOf, ih]

/-- `VBITS[k] = V[N-1-k]` (spec/40_construct_convert.md R77), for any width. -/
theorem bitsOf_getElem? (v w k : Nat) : (bitsOf v w)[k]? = if k < w then some (v.testBit (w - 1 - k)) else none := by
  induction w generalizing k with
  | zero => simp [bitsOf]
  | succ w ih =>
    cases k with
    | zero => simp [bitsOf]
    | succ k =>
      rw [bitsOf, List.getElem?_cons_succ, ih]
      by_cases h : k < w
      · rw [if_pos h, if_pos (by omega)]; congr 2; omega
      · rw [if_neg h, if_neg (by omega)]

end Sys2Proof.Machine
end

