-- ==== Sys2Proof/Laws/PerInstr.lean ====
section
/-! SUPPORT. Facts about every command as syntax, one lemma per constructor. -/

namespace Sys2Proof.Laws

/-- Decoding the word of a command gives the command back. -/
def DecodeEncode.Statement (i : Instr) : Prop := decode (encode i) = .ok i

theorem DecodeEncode.load (w : BitVec 3) : DecodeEncode.Statement (.load w) := by
  revert w; unfold DecodeEncode.Statement; decide
theorem DecodeEncode.read : DecodeEncode.Statement .read := rfl
theorem DecodeEncode.fill (f : Bool) : DecodeEncode.Statement (.fill f) := by cases f <;> rfl
theorem DecodeEncode.getbit : DecodeEncode.Statement .getbit := rfl
theorem DecodeEncode.setbit (f : Bool) : DecodeEncode.Statement (.setbit f) := by cases f <;> rfl
theorem DecodeEncode.inc : DecodeEncode.Statement .inc := rfl
theorem DecodeEncode.and : DecodeEncode.Statement .and := rfl
theorem DecodeEncode.or : DecodeEncode.Statement .or := rfl
theorem DecodeEncode.xor : DecodeEncode.Statement .xor := rfl
theorem DecodeEncode.not : DecodeEncode.Statement .not := rfl
theorem DecodeEncode.shl : DecodeEncode.Statement .shl := rfl
theorem DecodeEncode.shr : DecodeEncode.Statement .shr := rfl
theorem DecodeEncode.cmp : DecodeEncode.Statement .cmp := rfl

/-- The match and the mask of a command's row, copied from spec/opcode_table.json. -/
def tableRow : Instr → Cmd × Cmd
  | .load _ => (0x00000001#32, 0xFFFFFE3F#32)
  | .read => (0x00000002#32, 0xFFFFFFFF#32)
  | .fill _ => (0x00000003#32, 0xFFFFFFDF#32)
  | .getbit => (0x00000004#32, 0xFFFFFFFF#32)
  | .setbit _ => (0x00000005#32, 0xFFFFFFDF#32)
  | .inc => (0x00000006#32, 0xFFFFFFFF#32)
  | .and => (0x00000007#32, 0xFFFFFFFF#32)
  | .or => (0x00000008#32, 0xFFFFFFFF#32)
  | .xor => (0x00000009#32, 0xFFFFFFFF#32)
  | .not => (0x0000000A#32, 0xFFFFFFFF#32)
  | .shl => (0x0000000B#32, 0xFFFFFFFF#32)
  | .shr => (0x0000000C#32, 0xFFFFFFFF#32)
  | .cmp => (0x0000000D#32, 0xFFFFFFFF#32)

/-- The word of a command fits its row of the opcode table. -/
def TableRow.Statement (i : Instr) : Prop := encode i &&& (tableRow i).2 = (tableRow i).1

theorem TableRow.load (w : BitVec 3) : TableRow.Statement (.load w) := by
  revert w; unfold TableRow.Statement; decide
theorem TableRow.read : TableRow.Statement .read := rfl
theorem TableRow.fill (f : Bool) : TableRow.Statement (.fill f) := by cases f <;> rfl
theorem TableRow.getbit : TableRow.Statement .getbit := rfl
theorem TableRow.setbit (f : Bool) : TableRow.Statement (.setbit f) := by cases f <;> rfl
theorem TableRow.inc : TableRow.Statement .inc := rfl
theorem TableRow.and : TableRow.Statement .and := rfl
theorem TableRow.or : TableRow.Statement .or := rfl
theorem TableRow.xor : TableRow.Statement .xor := rfl
theorem TableRow.not : TableRow.Statement .not := rfl
theorem TableRow.shl : TableRow.Statement .shl := rfl
theorem TableRow.shr : TableRow.Statement .shr := rfl
theorem TableRow.cmp : TableRow.Statement .cmp := rfl

end Sys2Proof.Laws
end

