-- ==== Sys2Proof/Laws/Step.lean ====
section
/-! SUPPORT. What one command, the command port and one step can do, once each. -/

namespace Sys2Proof.Machine

/-! One lemma per command: if it answers a next state, that state is one of these. -/

theorem execLoad_cases {w : BitVec 3} {s t : State} (h : execLoad w s = .next t) :
    (loadWidth w = none ∧ t = raiseError s .unsupportedWidth) ∨
    (∃ wbits, loadWidth w = some wbits ∧ wbits ≠ s.params.n ∧ t = raiseError s .widthMismatch) ∨
    (loadWidth w = some s.params.n ∧ t = completeOk (writeV s (operandPattern s s.params.n))) := by
  unfold execLoad at h
  split at h
  · next hw => cases h; exact .inl ⟨hw, rfl⟩
  · next wbits hw =>
    split at h <;> cases h
    · next hn => exact .inr (.inl ⟨wbits, hw, hn, rfl⟩)
    · next hn => rw [not_not] at hn; subst hn; exact .inr (.inr ⟨hw, rfl⟩)

theorem execRead_cases {s t : State} (h : execRead s = .next t) :
    (readLegal s.params = true ∧
      t = completeOk (writeScalar s (value (unitBits s.params) (storageUnits s)))) ∨
    (readLegal s.params = false ∧ t = raiseError (writeScalar s 0) .readbackUnsupportedShape) := by
  unfold execRead at h
  split at h <;> cases h
  · next hl => exact .inl ⟨hl, rfl⟩
  · next hl => exact .inr ⟨by simpa using hl, rfl⟩

theorem execFill_cases {f : Bool} {s t : State} (h : execFill f s = .next t) :
    t = completeOk (writeV s (value (unitBits s.params) (fillUnits s.params f))) := by cases h; rfl

theorem execGetbit_cases {s t : State} (h : execGetbit s = .next t) :
    (s.params.n ≤ operandIndex s ∧ t = completeOk (writeBitout s false)) ∨
    (operandIndex s < s.params.n ∧ t = completeOk (writeBitout s (s.v.testBit (operandIndex s)))) := by
  unfold execGetbit at h
  split at h <;> cases h
  · next hl => exact .inl ⟨hl, rfl⟩
  · next hl => exact .inr ⟨by omega, rfl⟩

theorem execSetbit_cases {f : Bool} {s t : State} (h : execSetbit f s = .next t) :
    (s.params.n ≤ operandIndex s ∧ t = raiseError s .indexOutOfRange) ∨
    (operandIndex s < s.params.n ∧ t = completeOk (writeV s (putBit s.v (operandIndex s) f))) := by
  unfold execSetbit at h
  split at h <;> cases h
  · next hl => exact .inl ⟨hl, rfl⟩
  · next hl => exact .inr ⟨by omega, rfl⟩

/-- The storage image INC computes, before the truncation mask. -/
theorem execInc_cases {s t : State} (h : execInc s = .next t) :
    (operandSigned s = 0 ∧ t = completeOk s) ∨
    (operandSigned s ≠ 0 ∧ tooWide s.params (operandSigned s).natAbs = true ∧ s.params.wideDelta = .reject ∧
      t = raiseError s .deltaTooWide) ∨
    (operandSigned s ≠ 0 ∧ (tooWide s.params (operandSigned s).natAbs = false ∨ s.params.wideDelta = .wrap) ∧
      t = completeOk (writeV s (value (unitBits s.params)
        (if operandSigned s > 0 then
          addUnits (unitBits s.params) (storageUnits s)
            (units (unitBits s.params) (unitCount s.params) (narrowed s.params (operandSigned s).natAbs))
        else
          subUnits (unitBits s.params) (storageUnits s)
            (units (unitBits s.params) (unitCount s.params) (narrowed s.params (operandSigned s).natAbs)))))) := by
  unfold execInc at h
  dsimp only at h
  split at h
  · next hd => cases h; exact .inl ⟨hd, rfl⟩
  · next hd =>
    split at h <;> cases h
    · next hw =>
      simp only [Bool.and_eq_true, beq_iff_eq] at hw
      exact .inr (.inl ⟨hd, hw.1, hw.2, rfl⟩)
    · next hw =>
      refine .inr (.inr ⟨hd, ?_, rfl⟩)
      cases htw : tooWide s.params (operandSigned s).natAbs
      · exact .inl rfl
      · right
        cases hwd : s.params.wideDelta
        · rfl
        · simp [htw, hwd] at hw

theorem shiftBy_cases (dir : ShiftDir) (s : State) :
    (operandSigned s = 0 ∧ shiftBy dir s = completeOk s) ∨
    (operandSigned s ≠ 0 ∧ shiftBy dir s = completeOk (writeV s (barrel (capacity s.params) s.v
      (operandSigned s).natAbs (if operandSigned s > 0 then dir else oppositeDir dir)))) := by
  unfold shiftBy
  by_cases h : operandSigned s = 0
  · exact .inl ⟨h, if_pos h⟩
  · exact .inr ⟨h, if_neg h⟩

/-! The shape every command's next state has. -/

/-- A next state of a command: an error that changed at most `SCALAR`, or one register write and success. -/
inductive CommandResult (i : Instr) (s : State) : State → Prop
  | error (e : Error) (h : i ≠ .read) : CommandResult i s (raiseError s e)
  | readError (h : i = .read) : CommandResult i s (raiseError (writeScalar s 0) .readbackUnsupportedShape)
  | noop (h : i = .inc ∨ i = .shl ∨ i = .shr) : CommandResult i s (completeOk s)
  | vector (x : Nat) (h : (∃ w, i = .load w) ∨ (∃ f, i = .fill f) ∨ (∃ f, i = .setbit f) ∨ i = .inc ∨ i = .shl ∨ i = .shr) :
      CommandResult i s (completeOk (writeV s x))
  | scalar (x : Nat) (h : i = .read) : CommandResult i s (completeOk (writeScalar s x))
  | bitout (b : Bool) (h : i = .getbit) : CommandResult i s (completeOk (writeBitout s b))
  | result (r : Nat × Nat) (h : i = .and ∨ i = .or ∨ i = .xor ∨ i = .not) :
      CommandResult i s (completeOk (writeRes s r))
  | cmpout (r : Int) (h : i = .cmp) : CommandResult i s (completeOk (writeCmpout s r))

/-- Every next state of `exec` has one of these shapes. -/
theorem exec_shape {i : Instr} {s t : State} (h : exec i s = .next t) : CommandResult i s t := by
  cases i with
  | load w =>
    rcases execLoad_cases h with ⟨-, rfl⟩ | ⟨-, -, -, rfl⟩ | ⟨-, rfl⟩
    · exact .error _ (by simp)
    · exact .error _ (by simp)
    · exact .vector _ (by simp)
  | read =>
    rcases execRead_cases h with ⟨-, rfl⟩ | ⟨-, rfl⟩
    · exact .scalar _ rfl
    · exact .readError rfl
  | fill f => rw [execFill_cases h]; exact .vector _ (by simp)
  | getbit => rcases execGetbit_cases h with ⟨-, rfl⟩ | ⟨-, rfl⟩ <;> exact .bitout _ rfl
  | setbit f =>
    rcases execSetbit_cases h with ⟨-, rfl⟩ | ⟨-, rfl⟩
    · exact .error _ (by simp)
    · exact .vector _ (by simp)
  | inc =>
    rcases execInc_cases h with ⟨-, rfl⟩ | ⟨-, -, -, rfl⟩ | ⟨-, -, rfl⟩
    · exact .noop (by simp)
    · exact .error _ (by simp)
    · exact .vector _ (by simp)
  | and => cases h; exact .result _ (by simp)
  | or => cases h; exact .result _ (by simp)
  | xor => cases h; exact .result _ (by simp)
  | not => cases h; exact .result _ (by simp)
  | shl =>
    cases h
    rcases shiftBy_cases .left s with ⟨-, h⟩ | ⟨-, h⟩ <;> rw [h]
    · exact .noop (by simp)
    · exact .vector _ (by simp)
  | shr =>
    cases h
    rcases shiftBy_cases .right s with ⟨-, h⟩ | ⟨-, h⟩ <;> rw [h]
    · exact .noop (by simp)
    · exact .vector _ (by simp)
  | cmp => cases h; exact .cmpout _ rfl

/-! The command port and one step. -/

/-- The command in progress is a decoded one, or an illegal word (spec/30_encoding.md R66). -/
theorem runSampled_cases {s t : State} (h : runSampled s = .next t) :
    (∃ i, decode s.sampled.cmd = .ok i ∧ exec i s = .next t) ∨
    (∃ e, decode s.sampled.cmd = .error e ∧ t = raiseError s .illegalCommand) := by
  unfold runSampled at h
  split at h
  · next i hi => exact .inl ⟨i, hi, h⟩
  · next e he => cases h; exact .inr ⟨e, he, rfl⟩

/-- What one step can do: reset, hold, complete the command in progress, or accept and run the next one. -/
theorem step_cases {s t : State} (h : step s = .next t) :
    (∃ rest, s.inputs = .reset :: rest ∧ t = hardReset s rest) ∨
    (s.inputs = [] ∧ s.handshake = .idle ∧ t = s) ∨
    (s.handshake = .busy ∧ (∀ rest, s.inputs ≠ .reset :: rest) ∧ runSampled s = .next t) ∨
    (∃ r rest, s.inputs = .command r :: rest ∧ s.handshake = .idle ∧ runSampled (accept s r rest) = .next t) := by
  unfold step advance at h
  split at h
  · next hi => cases h; exact .inl ⟨_, hi, rfl⟩
  · next hi hb _ => exact .inr (.inr (.inl ⟨by assumption, fun rest he => by simp_all, h⟩))
  · next hi hb => cases h; exact .inr (.inl ⟨hi, hb, rfl⟩)
  · next r rest hi hb => exact .inr (.inr (.inr ⟨r, rest, hi, hb, h⟩))

end Sys2Proof.Machine
end

