-- ==== Sys2Proof/Tests/Slice0.lean ====
section
/-! SUPPORT. Tests whose expected results come from the spec (each names its vector or rule), and for every statement
with hypotheses a witness that meets them, at the boundary of each clause. -/

namespace Sys2Proof.Tests

open Sys2Proof.Machine

/-! ## Helpers -/

/-- An instance with `V`, `DATA` and `B` given and a command in progress, the rest as after reset. -/
def inst (n nb : Nat) (g : Granularity) (wd : WideDelta) (v data b : Nat) : State :=
  { State.resetOf { n := n, nb := nb, granularity := g, wideDelta := wd } with
    v := v, handshake := .busy, sampled := { cmd := 0#32, data := BitVec.ofNat 64 data, b := b } }

/-- The state after one command. -/
def after (i : Instr) (s : State) : State :=
  match exec i s with
  | .next t => t
  | .fault _ => s
  | .refused _ => s

/-- The state after one step. -/
def stepped (s : State) : State :=
  match step s with
  | .next t => t
  | .fault _ => s
  | .refused _ => s

/-- An idle instance with events presented. -/
def idleWith (s : State) (events : List HostEvent) : State := { s with handshake := .idle, inputs := events }

/-- One presented command. -/
def cmdOf (c : Cmd) (data b : Nat) : HostEvent := .command { cmd := c, data := BitVec.ofNat 64 data, b := b }

/-! ## Well-formedness: each check refuses an ill-formed term -/

theorem test_wf_refuses_zero_N : ¬ Params.Wf { n := 0, nb := 1, granularity := .byte, wideDelta := .wrap } := by decide
theorem test_wf_refuses_zero_NB : ¬ Params.Wf { n := 1, nb := 0, granularity := .byte, wideDelta := .wrap } := by decide
theorem test_wf_accepts_one : Params.Wf { n := 1, nb := 1, granularity := .word, wideDelta := .reject } := by decide
theorem test_wf_refuses_wide_B : ¬ Request.Wf Config.params { cmd := 7#32, data := 0#64, b := 2 ^ 16 } := by decide
theorem test_wf_accepts_full_B : Request.Wf Config.params { cmd := 7#32, data := 0#64, b := 2 ^ 16 - 1 } := by decide

/-! ## Decoding, words written out from 30_encoding.md R58 and R64: RSV, W, F, OPC -/

theorem test_decode_load : decode 0b00000000000000000000000_010_0_00001#32 = .ok (.load 2#3) := by rfl
theorem test_decode_load_unsupported : decode 0b00000000000000000000000_111_0_00001#32 = .ok (.load 7#3) := by rfl
theorem test_decode_read : decode 0b00000000000000000000000_000_0_00010#32 = .ok .read := by rfl
theorem test_decode_fill : decode 0b00000000000000000000000_000_1_00011#32 = .ok (.fill true) := by rfl
theorem test_decode_fill_zero : decode 0b00000000000000000000000_000_0_00011#32 = .ok (.fill false) := by rfl
theorem test_decode_getbit : decode 0b00000000000000000000000_000_0_00100#32 = .ok .getbit := by rfl
theorem test_decode_setbit : decode 0b00000000000000000000000_000_1_00101#32 = .ok (.setbit true) := by rfl
theorem test_decode_setbit_zero : decode 0b00000000000000000000000_000_0_00101#32 = .ok (.setbit false) := by rfl
theorem test_decode_inc : decode 0b00000000000000000000000_000_0_00110#32 = .ok .inc := by rfl
theorem test_decode_and : decode 0b00000000000000000000000_000_0_00111#32 = .ok .and := by rfl
theorem test_decode_or : decode 0b00000000000000000000000_000_0_01000#32 = .ok .or := by rfl
theorem test_decode_xor : decode 0b00000000000000000000000_000_0_01001#32 = .ok .xor := by rfl
theorem test_decode_not : decode 0b00000000000000000000000_000_0_01010#32 = .ok .not := by rfl
theorem test_decode_shl : decode 0b00000000000000000000000_000_0_01011#32 = .ok .shl := by rfl
theorem test_decode_shr : decode 0b00000000000000000000000_000_0_01100#32 = .ok .shr := by rfl
theorem test_decode_cmp : decode 0b00000000000000000000000_000_0_01101#32 = .ok .cmp := by rfl
/-- ENC-8 and ENC-9: the lowest and the highest reserved bit. -/
theorem test_decode_reserved : decode 0x00000200#32 = .error .reservedBits ∧
    decode 0x80000006#32 = .error .reservedBits := ⟨rfl, rfl⟩
/-- ENC-3 and ENC-7. -/
theorem test_decode_illegal : decode 0x0000001F#32 = .error .illegalOpcode ∧
    decode 0x00000046#32 = .error .strayWidth := ⟨rfl, rfl⟩
theorem test_table_word : decodeTableWord 32 0x041 = some (.load 1#3) ∧ decodeTableWord 32 0x00E = none := ⟨rfl, rfl⟩

/-- R70 and R71: the words of `LOAD.16 0xABCD`, `SHR -4` and `DEC 1`. -/
theorem test_assemble : assemble (.load 1#3 0xABCD) = { cmd := 0x041#32, data := 0xABCD#64, b := 0 } ∧
    assemble (.shr (-4)) = { cmd := 0x00C#32, data := 0xFFFFFFFFFFFFFFFC#64, b := 0 } ∧
    assemble (expand (.dec 1)) = { cmd := 0x006#32, data := 0xFFFFFFFFFFFFFFFF#64, b := 0 } := by decide

/-! ## Vectors of 95_test_vectors.md, at most two a command -/

/-- LD-2: bits above `Wbits` are ignored. -/
theorem test_load_ignores_upper_bits :
    (after (.load 0#3) (inst 8 8 .byte .wrap 0 0xFFFFFFFFFFFFFFFF 0)).v = 0xFF := by decide
/-- LD-10: a width mismatch keeps `V`. -/
theorem test_load_mismatch : (after (.load 2#3) (inst 16 16 .byte .wrap 0x1234 0 0)).v = 0x1234 ∧
    (after (.load 2#3) (inst 16 16 .byte .wrap 0x1234 0 0)).err = 5#3 := by decide
/-- RD-2. -/
theorem test_read_nine_bits : (after .read (inst 9 9 .byte .wrap 0x1FF 0 0)).scalar = 0x1FF#64 := by decide
/-- RD-4 and RD-12: a READ that fails clears `SCALAR`. -/
theorem test_read_unsupported :
    (after .read { inst 17 17 .byte .wrap 0x1FFFF 0 0 with scalar := 0x1234#64 }).scalar = 0#64 ∧
    (after .read (inst 17 17 .byte .wrap 0x1FFFF 0 0)).err = 3#3 := by decide
/-- FL-4. -/
theorem test_fill_two_words : storageUnits (after (.fill true) (inst 70 8 .word .wrap 0 0 0)) =
    [0x3F, 0xFFFFFFFFFFFFFFFF] := by decide
/-- FL-7. -/
theorem test_fill_zero : (after (.fill false) (inst 12 8 .byte .wrap 0xABC 0 0)).v = 0 := by decide
/-- BA-1. -/
theorem test_getbit_top : (after .getbit (inst 9 9 .byte .wrap 0x100 8 0)).bitout = 1#1 := by decide
/-- BA-3: a padding position reads 0 without error. -/
theorem test_getbit_padding : (after .getbit { inst 12 8 .byte .wrap 0xFFF 0x0F 0 with bitout := 1#1 }).bitout = 0#1 ∧
    (after .getbit (inst 12 8 .byte .wrap 0xFFF 0x0F 0)).err = 0#3 := by decide
/-- BA-12: bit 64 is bit 0 of the most-significant byte. -/
theorem test_setbit_unit : storageUnits (after (.setbit true) (inst 70 8 .byte .wrap 0 0x40 0)) =
    [1, 0, 0, 0, 0, 0, 0, 0, 0] := by decide
/-- ER-1: an error keeps `V`, `CMPOUT` and `BITOUT`; `STATUS = 3A`. -/
theorem test_setbit_error :
    statusWord (after (.setbit true) { inst 16 16 .byte .wrap 0x1234 16 0 with cmpout := 1#2, bitout := 1#1 }) =
      0x3A#32 := by decide
/-- ADD-7: the exact carry. -/
theorem test_inc_exact_carry : (after .inc (inst 24 24 .byte .wrap 0x00FF01 0xFFFF 0)).v = 0x01FF00 := by decide
/-- ADD-22: the borrow runs through nine bytes. -/
theorem test_inc_borrow : storageUnits (after .inc (inst 70 8 .byte .wrap 0 0xFFFFFFFFFFFFFFFF 0)) =
    [0x3F, 0xFF, 0xFF, 0xFF, 0xFF, 0xFF, 0xFF, 0xFF, 0xFF] := by decide
/-- ADD-13 and ADD-14: the two policies on a magnitude wider than the storage. -/
theorem test_inc_wide : (after .inc (inst 8 8 .byte .wrap 0x80 511 0)).v = 0x7F ∧
    (after .inc (inst 8 8 .byte .reject 0x80 511 0)).err = 6#3 := by decide
/-- LG-2. -/
theorem test_and_narrows : (after .and (inst 12 20 .byte .wrap 0xABC 0 0x12345)).res = 0x204 ∧
    (after .and (inst 12 20 .byte .wrap 0xABC 0 0x12345)).resW = 12 := by decide
/-- LG-4. -/
theorem test_or_widens : (after .or (inst 12 20 .byte .wrap 0xABC 0 0x12345)).res = 0x12BFD ∧
    (after .or (inst 12 20 .byte .wrap 0xABC 0 0x12345)).resW = 20 := by decide
/-- LG-5. -/
theorem test_xor_widens : (after .xor (inst 12 20 .byte .wrap 0xABC 0 0x12345)).res = 0x129F9 := by decide
/-- LG-7: the inverted padding is masked. -/
theorem test_not_masks_padding : (after .not (inst 9 9 .byte .wrap 0 0 0)).res = 0x1FF := by decide
/-- SH-18: bits past `N` but inside the storage are cleared. -/
theorem test_shl_cut : (after .shl (inst 12 12 .byte .wrap 0xFFF 2 0)).v = 0xFFC := by decide
/-- SH-6: a negative count shifts the other way. -/
theorem test_shl_negative : (after .shl (inst 12 12 .byte .wrap 0xABC 0xFFFFFFFFFFFFFFFC 0)).v = 0x0AB := by decide
/-- SH-10. -/
theorem test_shr_eleven : (after .shr (inst 12 12 .byte .wrap 0xABC 0xB 0)).v = 1 := by decide
/-- SH-12. -/
theorem test_shr_negative : (after .shr (inst 12 12 .byte .wrap 0xABC 0xFFFFFFFFFFFFFFFC 0)).v = 0xBC0 := by decide
/-- CP-7: the top unit decides. -/
theorem test_cmp_top_unit : (after .cmp (inst 70 8 .word .wrap (2 ^ 64) 0 0xFF)).cmpout = 0b01#2 := by decide
/-- CP-4: `V < B` is -1. -/
theorem test_cmp_less : (after .cmp (inst 8 16 .byte .wrap 0xFF 0 0x0100)).cmpout = 0b11#2 := by decide

/-! ## The port, reset and the views -/

/-- ENC-1 through the port: `STATUS = 0C`. -/
theorem test_illegal_word : statusWord (stepped (idleWith (inst 64 64 .byte .wrap 0 5 0) [cmdOf 0#32 5 0])) =
    0x0C#32 := by decide
/-- ER-3: reset clears `ERRS`. -/
theorem test_reset_clears_errs :
    statusWord (stepped (idleWith { inst 16 16 .byte .wrap 5 0 0 with errs := 1#1, err := 2#3 } [.reset])) =
      0#32 := by decide
/-- R128: reset aborts the command in progress. -/
theorem test_reset_aborts :
    stepped { inst 16 16 .byte .wrap 5 1 0 with sampled := { cmd := 6#32, data := 1#64, b := 0 }, inputs := [.reset] } =
      State.resetOf (inst 16 16 .byte .wrap 5 1 0).params := by decide
/-- S2 through the port: INC 1 of 255 at `N = 16`. -/
theorem test_fetch_word :
    (stepped ({ inst 16 16 .byte .wrap 255 1 0 with inputs := [] }.withFetchWord 32 0x006)).v = 256 := by decide
/-- R45's example for both granularities. -/
theorem test_storage_views : storageUnits (inst 16 16 .byte .wrap 0x0100 0 0) = [0x01, 0x00] ∧
    storageUnits (inst 16 16 .word .wrap 0x0100 0 0) = [0x0000000000000100] := by decide
/-- R42: an index past the end is refused. -/
theorem test_storage_refused : viewStorage (inst 16 16 .byte .wrap 0x0100 0 0) 2 = .error (.noSuchView 2) := by rfl
/-- R77's example. -/
theorem test_vbits : viewVbits (inst 9 9 .byte .wrap 0x105 0 0) =
    [true, false, false, false, false, false, true, false, true] := by decide
/-- R81: the mask on `u[0]` at `N = 9`, both granularities. -/
theorem test_cut_mask : cutAt 8 9 0xFFFF = 0x1FF ∧ cutAt 64 9 0xFFFF = 0x1FF := by decide

/-! ## Witnesses: concrete states and operands that meet each statement's hypotheses, one for each clause -/

theorem witness_DecodeIsInverseOfEncode :
    decode 0x1C1#32 = .ok (.load 7#3) ∧ encode (.load 7#3) = 0x1C1#32 := ⟨rfl, rfl⟩

theorem witness_IllegalWordsRaiseIllegalCommand :
    (∃ e, decode 0x00000200#32 = .error e) ∧ (∃ e, decode 0x80000001#32 = .error e) ∧
    (∃ e, decode 0x00000000#32 = .error e) ∧ (∃ e, decode 0x0000000E#32 = .error e) ∧
    (∃ e, decode 0x0000001F#32 = .error e) ∧ (∃ e, decode 0x00000021#32 = .error e) ∧
    (∃ e, decode 0x0000002D#32 = .error e) ∧ (∃ e, decode 0x00000043#32 = .error e) ∧
    (∃ e, decode 0x000001CD#32 = .error e) ∧
    (idleWith State.reset [cmdOf 0x0E#32 5 0]).handshake = .idle ∧
    (idleWith State.reset [cmdOf 0x0E#32 5 0]).inputs = [cmdOf 0x0E#32 5 0] :=
  ⟨⟨_, rfl⟩, ⟨_, rfl⟩, ⟨_, rfl⟩, ⟨_, rfl⟩, ⟨_, rfl⟩, ⟨_, rfl⟩, ⟨_, rfl⟩, ⟨_, rfl⟩, ⟨_, rfl⟩, rfl, rfl⟩

theorem witness_StepRunsDecodedCommand :
    (idleWith State.reset [cmdOf 6#32 1 0]).handshake = .idle ∧
    (idleWith State.reset [cmdOf 6#32 1 0]).inputs = [cmdOf 6#32 1 0] ∧ decode 6#32 = .ok .inc := ⟨rfl, rfl, rfl⟩

theorem witness_TableWordRunsNext : decodeTableWord 32 0x1C1 = some (.load 7#3) ∧
    decodeTableWord 32 0x00D = some .cmp := ⟨rfl, rfl⟩

theorem witness_IdlePortHoldsState : State.reset.handshake = .idle ∧ State.reset.inputs = [] := ⟨rfl, rfl⟩

/-- Reset from an idle block and with a command in progress. -/
theorem witness_ResetSetsEveryPieceOfState :
    (idleWith State.reset [.reset]).inputs = .reset :: [] ∧
    { inst 9 9 .byte .wrap 0x1FF 1 0 with inputs := [HostEvent.reset, .reset] }.inputs = .reset :: [.reset] :=
  ⟨rfl, rfl⟩

theorem witness_PresentedCommandWaits :
    { inst 9 9 .byte .wrap 0x1FF 1 0 with inputs := [cmdOf 2#32 0 0] }.handshake = .busy ∧
    { inst 9 9 .byte .wrap 0x1FF 1 0 with inputs := [cmdOf 2#32 0 0] }.inputs = [cmdOf 2#32 0 0] := ⟨rfl, rfl⟩

theorem witness_ParametersNeverChange :
    ∃ t, step (idleWith (inst 70 8 .word .reject 5 1 0) [cmdOf 6#32 1 0]) = .next t := ⟨_, rfl⟩

theorem witness_StepKeepsInvariant :
    (idleWith (inst 9 9 .byte .wrap 0x1FF 1 0) [cmdOf 6#32 1 0]).Inv ∧
    ∃ t, step (idleWith (inst 9 9 .byte .wrap 0x1FF 1 0) [cmdOf 6#32 1 0]) = .next t := ⟨by decide, ⟨_, rfl⟩⟩

theorem witness_ResetMeetsInvariant :
    Params.Wf { n := 1, nb := 1, granularity := .byte, wideDelta := .reject } := by decide

/-- The lowest and the highest padding position of `N = 9`, and a partial top unit. -/
theorem witness_TruncationInvariantHoldsInStorage :
    (idleWith (inst 9 9 .byte .wrap 0x1FF 1 0) [cmdOf 0x23#32 0 0]).Inv ∧
    (∃ t, step (idleWith (inst 9 9 .byte .wrap 0x1FF 1 0) [cmdOf 0x23#32 0 0]) = .next t) ∧
    (9 : Nat) ≤ 9 ∧ 15 < capacity (inst 9 9 .byte .wrap 0 0 0).params ∧
    topBits (inst 9 9 .byte .wrap 0 0 0).params ≠ 0 := ⟨by decide, ⟨_, rfl⟩, by decide, by decide, by decide⟩

/-- A command that ends in an error: SETBIT past the end, and a READ of an unsupported shape. -/
theorem witness_OnlyMutatorsWriteV :
    ∃ t, runSampled { inst 9 9 .byte .wrap 0x1FF 9 0 with sampled := { cmd := 5#32, data := 9#64, b := 0 } } = .next t ∧
      t.err ≠ 0#3 := ⟨_, rfl, by decide⟩

theorem witness_ErrorsChangeOnlyStatus :
    (∃ t, runSampled { inst 9 9 .byte .wrap 0x1FF 9 0 with sampled := { cmd := 5#32, data := 9#64, b := 0 } } = .next t ∧
      t.err ≠ 0#3) ∧ decode 5#32 ≠ .ok .read ∧
    (∃ t, runSampled { inst 20 9 .byte .wrap 0x1FF 9 0 with sampled := { cmd := 2#32, data := 9#64, b := 0 } } = .next t ∧
      t.err ≠ 0#3) ∧ decode 2#32 = .ok .read :=
  ⟨⟨_, rfl, by decide⟩, (fun h => nomatch h), ⟨_, rfl, by decide⟩, rfl⟩

theorem witness_ErrsIsSticky :
    (∃ t, runSampled (inst 9 9 .byte .wrap 0x1FF 9 0) = .next t ∧ t.err ≠ 0#3) ∧
    (∃ t, runSampled { inst 9 9 .byte .wrap 0 9 0 with sampled := { cmd := 6#32, data := 9#64, b := 0 } } = .next t ∧
      t.err = 0#3) ∧
    (∃ t, step (idleWith { State.reset with errs := 1#1 } [cmdOf 6#32 1 0]) = .next t) ∧
    (∀ rest, (idleWith { State.reset with errs := 1#1 } [cmdOf 6#32 1 0]).inputs ≠ .reset :: rest) ∧
    (idleWith { State.reset with errs := 1#1 } [.reset]).inputs = .reset :: [] :=
  ⟨⟨_, rfl, by decide⟩, ⟨_, rfl, by decide⟩, ⟨_, rfl⟩, (fun _ h => nomatch h), rfl⟩

theorem witness_UnusedOperandsAreIgnored :
    (Instr.inc ≠ .and ∧ Instr.inc ≠ .or ∧ Instr.inc ≠ .xor ∧ Instr.inc ≠ .cmp) ∧
    (Instr.and = .read ∨ (∃ f, Instr.and = .fill f) ∨ Instr.and = .and) := by
  refine ⟨by decide, .inr (.inr rfl)⟩

/-- Codes 3 and 4, the widest supported and the first unsupported one, and a width that differs from `N`. -/
theorem witness_LoadResult :
    4 ≤ (4#3).toNat ∧ (3#3).toNat < 4 ∧ 8 * 2 ^ (3#3).toNat = (inst 64 64 .word .wrap 0 5 0).params.n ∧
    8 * 2 ^ (3#3).toNat ≠ (inst 63 64 .word .wrap 0 5 0).params.n ∧
    8 * 2 ^ (0#3).toNat = (inst 8 8 .byte .wrap 0 5 0).params.n := by decide

theorem witness_LoadOfSignExtendedPattern :
    (0#3).toNat < 4 ∧ 8 * 2 ^ (0#3).toNat = (inst 8 8 .byte .wrap 0 0 0).params.n ∧
    (3#3).toNat < 4 ∧ 8 * 2 ^ (3#3).toNat = (inst 64 8 .byte .wrap 0 0 0).params.n := by decide

theorem witness_ReadResult :
    (inst 64 8 .word .wrap (2 ^ 64 - 1) 0 0).v < 2 ^ 64 ∧
    capacity (inst 64 8 .word .wrap (2 ^ 64 - 1) 0 0).params ∈ [8, 16, 32, 64] ∧
    (inst 65 8 .word .wrap (2 ^ 64) 0 0).v < 2 ^ 65 ∧
    capacity (inst 65 8 .word .wrap (2 ^ 64) 0 0).params ∉ [8, 16, 32, 64] ∧
    capacity (inst 17 8 .byte .wrap 0 0 0).params ∉ [8, 16, 32, 64] := by decide

/-- R76 at every boundary of its table. -/
theorem witness_ReadLegalWidths :
    (∀ n ∈ [1, 16, 25, 32, 57, 64], readLegal (inst n 1 .byte .wrap 0 0 0).params = true) ∧
    (∀ n ∈ [17, 24, 33, 56, 65], readLegal (inst n 1 .byte .wrap 0 0 0).params = false) ∧
    readLegal (inst 64 1 .word .wrap 0 0 0).params = true ∧ readLegal (inst 65 1 .word .wrap 0 0 0).params = false := by
  decide

theorem witness_LoadThenReadGivesPattern :
    (idleWith (inst 64 8 .byte .wrap 0 0 0) [cmdOf (encode (.load 3#3)) 5 0, cmdOf (encode .read) 0 0]).handshake = .idle ∧
    (3#3).toNat < 4 ∧ 8 * 2 ^ (3#3).toNat = (inst 64 8 .byte .wrap 0 0 0).params.n := by decide

theorem witness_CutMasksOnlyTopUnit :
    (0xFFFF < 2 ^ capacity (inst 9 9 .byte .wrap 0 0 0).params ∧ topBits (inst 9 9 .byte .wrap 0 0 0).params ≠ 0 ∧
      1 < unitCount (inst 9 9 .byte .wrap 0 0 0).params) ∧
    0xFFFF < 2 ^ capacity (inst 16 9 .byte .wrap 0 0 0).params ∧ topBits (inst 16 9 .byte .wrap 0 0 0).params = 0 := by
  decide

/-- The last index within the width and the first one past it. -/
theorem witness_GetbitResult :
    (inst 9 9 .byte .wrap 0x100 8 0).sampled.data.toNat < (inst 9 9 .byte .wrap 0x100 8 0).params.n ∧
    (inst 9 9 .byte .wrap 0x100 9 0).params.n ≤ (inst 9 9 .byte .wrap 0x100 9 0).sampled.data.toNat := by decide

theorem witness_SetbitResult :
    (inst 9 9 .byte .wrap 0x100 8 0).sampled.data.toNat < (inst 9 9 .byte .wrap 0x100 8 0).params.n ∧
    (inst 9 9 .byte .wrap 0x100 8 0).v < 2 ^ (inst 9 9 .byte .wrap 0x100 8 0).params.n ∧
    (inst 9 9 .byte .wrap 0x100 9 0).params.n ≤ (inst 9 9 .byte .wrap 0x100 9 0).sampled.data.toNat := by decide

theorem witness_SetThenGetBit :
    (idleWith (inst 9 9 .byte .wrap 0x0FF 0 0)
      [cmdOf (encode (.setbit true)) 8 0, cmdOf (encode .getbit) 8 0, cmdOf (encode (.setbit false)) 8 0,
        cmdOf (encode .getbit) 8 0]).handshake = .idle ∧
    (0x0FF : Nat) < 2 ^ 9 ∧ (BitVec.ofNat 64 8).toNat < 9 := by decide

/-- The smallest magnitude that REJECT turns away at `CAP = 8`, and the largest it lets pass. -/
theorem witness_IncResult :
    (inst 8 8 .byte .reject 0xFF 256 0).v < 2 ^ 8 ∧
    ((inst 8 8 .byte .reject 0xFF 256 0).params.wideDelta = .reject ∧
      2 ^ capacity (inst 8 8 .byte .reject 0xFF 256 0).params ≤
        (inst 8 8 .byte .reject 0xFF 256 0).sampled.data.toInt.natAbs) ∧
    ¬ ((inst 8 8 .byte .reject 0xFF 255 0).params.wideDelta = .reject ∧
      2 ^ capacity (inst 8 8 .byte .reject 0xFF 255 0).params ≤
        (inst 8 8 .byte .reject 0xFF 255 0).sampled.data.toInt.natAbs) ∧
    (inst 8 8 .byte .wrap 0xFF 256 0).params.wideDelta ≠ .reject := by decide

theorem witness_RippleCircuitsAreModular :
    [0xFF, 0x00].length = [0x01, 0xFF].length ∧ (∀ u ∈ [0xFF, 0x00], u < 2 ^ 8) ∧ (∀ u ∈ [0x01, 0xFF], u < 2 ^ 8) ∧
    (after .inc (inst 9 9 .byte .wrap 0x1FF 1 0)).err = 0#3 := by decide

/-- ADD-17: `N = 56`, the widest block for which a magnitude can be too wide. -/
theorem witness_TooWideOnlyBelow64Bits :
    1 ≤ (inst 56 8 .byte .reject 0 0 0).params.n ∧
    2 ^ capacity (inst 56 8 .byte .reject 0 0 0).params ≤ (0x8000000000000000#64).toInt.natAbs := by decide

theorem witness_IncExactCarryCorner :
    (inst 24 24 .byte .wrap 0x00FF01 0xFFFF 0).params.n = 24 ∧
    (inst 24 24 .byte .wrap 0x00FF01 0xFFFF 0).params.granularity = .byte ∧
    (inst 24 24 .byte .wrap 0x00FF01 0xFFFF 0).v = 0x00FF01 ∧
    (inst 24 24 .byte .wrap 0x00FF01 0xFFFF 0).sampled.data = 0xFFFF#64 := ⟨rfl, rfl, rfl, rfl⟩

/-- ADD-14 and ADD-15. -/
theorem witness_RejectThresholdDependsOnGranularity :
    (inst 8 8 .byte .reject 0x80 511 0).params.wideDelta = .reject ∧ (inst 8 8 .byte .reject 0x80 511 0).v < 256 ∧
    (inst 8 8 .byte .reject 0x80 511 0).sampled.data = 511#64 ∧
    (inst 8 8 .word .reject 0x80 511 0).params.granularity = .word := by decide

/-- ADD-3, ADD-4 and ADD-18. -/
theorem witness_IncWrapsAtBothEnds :
    (inst 24 1 .byte .wrap 0xFFFFFF 1 0).v = 2 ^ 24 - 1 ∧
    (inst 24 1 .byte .wrap 0 0xFFFFFFFFFFFFFFFF 0).sampled.data = 0xFFFFFFFFFFFFFFFF#64 ∧
    (inst 1 1 .byte .wrap 0 3 0).params.n = 1 ∧ (inst 1 1 .byte .wrap 1 3 0).v < 2 ∧
    (inst 1 1 .byte .wrap 0 3 0).params.wideDelta = .wrap := by decide

/-- The premise `V < 2^N` of AND, OR, XOR, NOT, SHL, SHR and CMP, at its largest value. -/
theorem witness_vector_within_width :
    (inst 12 20 .byte .wrap 0xFFF 0 0x12345).v < 2 ^ (inst 12 20 .byte .wrap 0xFFF 0 0x12345).params.n := by decide

theorem witness_LogicLaws : (0xABC : Nat) < 2 ^ 12 ∧ (0x12345 : Nat) < 2 ^ 20 := by decide

theorem witness_BarrelClosedForm : (0xFFFF : Nat) < 2 ^ 16 := by decide

/-- The largest positive count and its opposite, and a count of zero, its own opposite. -/
theorem witness_ShiftLaws : (0x8000000000000001#64).toInt = -(0x7FFFFFFFFFFFFFFF#64).toInt ∧
    0 ≤ (0x7FFFFFFFFFFFFFFF#64).toInt ∧ (0#64).toInt = -(0#64).toInt := by decide

theorem witness_ShrThenShlClearsLowBits :
    (idleWith (inst 12 12 .byte .wrap 0xFFF 0 0) [cmdOf (encode .shr) 12 0, cmdOf (encode .shl) 12 0]).handshake = .idle ∧
    (0xFFF : Nat) < 2 ^ 12 ∧ 0 ≤ (BitVec.ofNat 64 12).toInt ∧ 12 ≤ (BitVec.ofNat 64 12).toInt.toNat := by decide

theorem witness_CompareLaws : (0xABC : Nat) < 2 ^ 12 ∧ (0xABC : Nat) < 2 ^ 20 := by decide

/-- Each pseudo-instruction at the boundary of its operand: the largest `DEC`, the last and the first bit. -/
theorem witness_PseudoInstructionsHaveTheirMeaning :
    (∀ p ∈ [PseudoLine.clr, .ones, .dec 1, .dec (2 ^ 63), .bset 8, .bclr 0],
      (idleWith (inst 9 9 .byte .wrap 0x1FF 0 0) [.command (assemble (expand p))]).inputs =
        .command (assemble (expand p)) :: []) ∧
    (inst 9 9 .byte .wrap 0x1FF 0 0).v < 2 ^ (inst 9 9 .byte .wrap 0x1FF 0 0).params.n ∧
    (8 : Nat) < (inst 9 9 .byte .wrap 0x1FF 0 0).params.n :=
  ⟨by intro p _; rfl, by decide, by decide⟩

/-- Two granularities of one instance, about to run INC. -/
theorem witness_GranularityIsInvisibleInValues :
    (idleWith (inst 12 20 .byte .wrap 0xABC 0 0) [cmdOf 6#32 1 0]).Inv ∧
    SameValues (idleWith (inst 12 20 .byte .wrap 0xABC 0 0) [cmdOf 6#32 1 0])
      (idleWith (inst 12 20 .word .wrap 0xABC 0 0) [cmdOf 6#32 1 0]) ∧
    SameStatus (idleWith (inst 12 20 .byte .wrap 0xABC 0 0) [cmdOf 6#32 1 0])
      (idleWith (inst 12 20 .word .wrap 0xABC 0 0) [cmdOf 6#32 1 0]) ∧
    decode 6#32 ≠ .ok .read :=
  ⟨by decide, by decide, by decide, (fun h => nomatch h)⟩

/-- The last unit and the first index past the end, of `V` and of `RES`. -/
theorem witness_StorageViewsAreUnits :
    (idleWith (inst 16 16 .byte .wrap 256 0 0) []).handshake = .idle ∧
    1 < unitCount (inst 16 16 .byte .wrap 256 0 0).params ∧ unitCount (inst 16 16 .byte .wrap 256 0 0).params ≤ 2 ∧
    1 < resUnitCount (inst 16 16 .byte .wrap 256 0 0) ∧ resUnitCount (inst 16 16 .byte .wrap 256 0 0) ≤ 2 := by decide

theorem witness_VbitsIsStorageSlice :
    (idleWith (inst 9 9 .byte .wrap 0x105 0 0) []).handshake = .idle ∧ 8 < (inst 9 9 .byte .wrap 0x105 0 0).params.n := by
  decide

theorem witness_StatusLayout : (idleWith (inst 9 9 .byte .wrap 0x105 0 0) []).handshake = .idle := rfl

/-- A read of the least-significant unit between commands, and one while a command is in progress. -/
theorem witness_ViewReadsFitTheirWidth :
    readView (idleWith (inst 9 9 .byte .wrap 0x1FF 0 0) []) (.storage 1) 0 = .ok (.number 0xFF) ∧
    (∃ x, readView (inst 9 9 .byte .wrap 0x1FF 0 0) (.storage 1) 7 = .ok (.number x)) ∧
    readView (idleWith (inst 9 9 .byte .wrap 0x1FF 0 0) []) (.resStorage 1) 0 = .ok (.number 0) :=
  ⟨rfl, ⟨_, rfl⟩, rfl⟩

/-- A step that clears `ERRS`, and a NOT that brings `RES_W` back to `N`. -/
theorem witness_FillZeroIsNotReset :
    (stepped (idleWith { State.reset with errs := 1#1 } [.reset])).errs = 0#1 ∧
    { inst 12 20 .byte .wrap 0 0 0 with resW := 20 }.resW ≠ 12 ∧
    (after .not { inst 12 20 .byte .wrap 0 0 0 with resW := 20 }).resW = 12 ∧
    (after .and { inst 12 20 .byte .wrap 0 0 0 with resW := 20 }).resW = 12 := by decide

end Sys2Proof.Tests
end

/-! PROOF. The parameters of an instance are fixed when it is made (spec/00_scope.md R6, R8): no command, no
acceptance and no reset writes them (spec/70_reset_and_hazards.md R128). -/

namespace Sys2Proof.Machine

/-- No shape of a command's next state writes the parameters. -/
theorem CommandResult.params_eq {i : Instr} {s t : State} (h : CommandResult i s t) : t.params = s.params := by
  cases h with
  | error => rw [raiseError_params]
  | readError => rw [raiseError_params, writeScalar_params]
  | noop => rw [completeOk_params]
  | vector => rw [completeOk_params, writeV_params]
  | scalar => rw [completeOk_params, writeScalar_params]
  | bitout => rw [completeOk_params, writeBitout_params]
  | result => rw [completeOk_params, writeRes_params]
  | cmpout => rw [completeOk_params, writeCmpout_params]

/-- Completing the command in progress, legal word or not, keeps the parameters. -/
theorem runSampled_params {s t : State} (h : runSampled s = .next t) : t.params = s.params := by
  obtain ⟨_, -, hexec⟩ | ⟨_, -, rfl⟩ := runSampled_cases h
  · exact (exec_shape hexec).params_eq
  · exact raiseError_params s .illegalCommand

/-- Settles O12, by the four things one step can do. -/
theorem parametersNeverChange : Obligations.ParametersNeverChange := by
  intro s t h
  obtain ⟨rest, -, rfl⟩ | ⟨-, -, rfl⟩ | ⟨-, -, hrun⟩ | ⟨r, rest, -, -, hrun⟩ := step_cases h
  · exact hardReset_params s rest
  · rfl
  · exact runSampled_params hrun
  · calc t.params
      _ = (accept s r rest).params := runSampled_params hrun
      _ = s.params := accept_params s r rest

end Sys2Proof.Machine

/-! PROOF. What each unit circuit and each command computes, in values: the layer that the statements about `V`, `RES`
and the two granularities stand on. -/

namespace Sys2Proof.Machine

/-! ## The circuits in values -/

/-- A number under `2^N` fits the storage. -/
theorem lt_capacity {p : Params} {x : Nat} (h : x < 2 ^ p.n) : x < 2 ^ capacity p :=
  Nat.lt_of_lt_of_le h (Nat.pow_le_pow_right Nat.two_pos (n_le_capacity p))

/-- The ripple adder adds modulo the storage: its carry out is discarded (spec/43_add_sub.md R89, R92). -/
theorem value_addUnits {ub : Nat} {a b : List Nat} (hlen : a.length = b.length) :
    value ub (addUnits ub a b) = (value ub a + value ub b) % 2 ^ (ub * a.length) := by
  obtain ⟨hl, hbounded, hsum⟩ := addCarry_spec ub a b hlen
  have hlt := value_lt hbounded
  rw [hl] at hlt
  rw [addUnits, ← hsum, Nat.add_mul_mod_self_right, Nat.mod_eq_of_lt hlt]

/-- The ripple subtractor subtracts modulo the storage: its borrow out is discarded (R90, R92). -/
theorem value_subUnits {ub : Nat} {a b : List Nat} (hlen : a.length = b.length) (ha : Bounded ub a)
    (hb : Bounded ub b) :
    (value ub (subUnits ub a b) : Int) = ((value ub a : Int) - value ub b) % 2 ^ (ub * a.length) := by
  obtain ⟨hl, hbounded, -, hdiff⟩ := subBorrow_spec ub a b hlen ha hb
  have hlt := value_lt hbounded
  rw [hl] at hlt
  have hdiff' : (value ub a : Int) - value ub b =
      value ub (subUnits ub a b) - (subBorrow ub a b).2 * 2 ^ (ub * a.length) := by
    have := congrArg (Nat.cast (R := Int)) hdiff
    push_cast at this
    unfold subUnits
    linarith
  rw [hdiff', Int.sub_mul_emod_self_right, Int.emod_eq_of_lt (by positivity) (by exact_mod_cast hlt)]

/-- The barrel to the left multiplies modulo the storage (spec/45_shift.md R102). -/
theorem barrel_left (cap v k : Nat) : barrel cap v k .left = v * 2 ^ k % 2 ^ cap := by
  refine Nat.eq_of_testBit_eq fun p => ?_
  rw [barrel_testBit, Nat.testBit_mod_two_pow, Nat.testBit_mul_two_pow]
  by_cases hp : p < cap
  · by_cases hk : k ≤ p
    · have hq : ((p : Int) - k).toNat = p - k := by omega
      simp [barrelBit, hp, hk, hq, show (p : Int) - k < cap by omega]
    · simp [barrelBit, hp, hk]
  · simp [hp]

/-- The barrel to the right divides, when the number fits the storage (R102). -/
theorem barrel_right {cap v : Nat} (hv : v < 2 ^ cap) (k : Nat) : barrel cap v k .right = v / 2 ^ k := by
  refine Nat.eq_of_testBit_eq fun p => ?_
  rw [barrel_testBit, Nat.testBit_div_two_pow]
  by_cases hp : p + k < cap
  · have hq : ((p : Int) + k).toNat = p + k := by omega
    simp [barrelBit, hq, show p < cap by omega, show (p : Int) + k < cap by omega,
      show (0 : Int) ≤ p + k by omega]
  · have hzero : v.testBit (p + k) = false :=
      Nat.testBit_lt_two_pow (Nat.lt_of_lt_of_le hv (Nat.pow_le_pow_right Nat.two_pos (by omega)))
    simp [barrelBit, hzero, show ¬ (p : Int) + k < cap by omega]

/-- Truncating a number that was taken modulo the storage is taking it modulo `2^N`. -/
theorem cut_mod_capacity (p : Params) (x : Nat) : cut p (x % 2 ^ capacity p) = x % 2 ^ p.n := by
  rw [cut_eq_mod (Nat.mod_lt _ (Nat.two_pow_pos _)),
    Nat.mod_mod_of_dvd _ (Nat.pow_dvd_pow 2 (n_le_capacity p))]

/-- The same for a storage image of an integer. -/
theorem cut_of_emod_capacity {p : Params} {x : Nat} {z : Int} (h : (x : Int) = z % 2 ^ capacity p) :
    cut p x = (z % 2 ^ p.n).toNat := by
  have hpow : ((2 ^ capacity p : Nat) : Int) = 2 ^ capacity p := by push_cast; rfl
  have hlt : x < 2 ^ capacity p := by
    have := Int.emod_lt_of_pos z (show (0 : Int) < 2 ^ capacity p by positivity)
    omega
  have hdvd : (2 ^ p.n : Int) ∣ 2 ^ capacity p := pow_dvd_pow 2 (n_le_capacity p)
  rw [cut_eq_mod hlt, ← Int.emod_emod_of_dvd z hdvd, ← h]
  norm_cast

/-! ## What a command writes -/

/-- What one command writes besides the handshake: an error, nothing, or one register. -/
inductive Effect
  | error (e : Error)
  /-- READ's error, which clears `SCALAR` first (spec/40_construct_convert.md R75). -/
  | readError
  | vector (x : Nat)
  | scalar (x : Nat)
  | bitout (b : Bool)
  | result (r : Nat × Nat)
  | cmpout (r : Int)

/-- `V` replaced by a number that is already truncated. -/
def setV (s : State) (x : Nat) : State := { s with v := x }

@[simp] theorem setV_params (s : State) (x : Nat) : (setV s x).params = s.params := rfl
@[simp] theorem setV_v (s : State) (x : Nat) : (setV s x).v = x := rfl
@[simp] theorem setV_res (s : State) (x : Nat) : (setV s x).res = s.res := rfl
@[simp] theorem setV_resW (s : State) (x : Nat) : (setV s x).resW = s.resW := rfl
@[simp] theorem setV_scalar (s : State) (x : Nat) : (setV s x).scalar = s.scalar := rfl
@[simp] theorem setV_bitout (s : State) (x : Nat) : (setV s x).bitout = s.bitout := rfl
@[simp] theorem setV_cmpout (s : State) (x : Nat) : (setV s x).cmpout = s.cmpout := rfl
@[simp] theorem setV_err (s : State) (x : Nat) : (setV s x).err = s.err := rfl
@[simp] theorem setV_errs (s : State) (x : Nat) : (setV s x).errs = s.errs := rfl
@[simp] theorem setV_handshake (s : State) (x : Nat) : (setV s x).handshake = s.handshake := rfl
@[simp] theorem setV_sampled (s : State) (x : Nat) : (setV s x).sampled = s.sampled := rfl
@[simp] theorem setV_inputs (s : State) (x : Nat) : (setV s x).inputs = s.inputs := rfl

@[simp] theorem setV_self (s : State) : setV s s.v = s := rfl

theorem writeV_eq_setV (s : State) (x : Nat) : writeV s x = setV s (cut s.params x) := rfl

/-- A write of a number within the width needs no truncation. -/
theorem writeV_of_lt {s : State} {x : Nat} (h : x < 2 ^ s.params.n) : writeV s x = setV s x := by
  rw [writeV_eq_setV, cut_of_lt h]

/-- The next state an effect gives. -/
def Effect.apply : Effect → State → State
  | .error e, s => raiseError s e
  | .readError, s => raiseError (writeScalar s 0) .readbackUnsupportedShape
  | .vector x, s => completeOk (setV s x)
  | .scalar x, s => completeOk (writeScalar s x)
  | .bitout b, s => completeOk (writeBitout s b)
  | .result r, s => completeOk (writeRes s r)
  | .cmpout r, s => completeOk (writeCmpout s r)

/-- A shift of a number below `2^N` by a signed count, positive to the left (spec/45_shift.md R103, R104). -/
def shifted (n v : Nat) (count : Int) : Nat :=
  if 0 ≤ count then v * 2 ^ count.natAbs % 2 ^ n else v / 2 ^ count.natAbs

/-- What each command writes, in values: `UNIT_BITS` shows in READ's legality and in REJECT's threshold alone. -/
def effect : Instr → State → Effect
  | .load w, s =>
    match loadWidth w with
    | none => .error .unsupportedWidth
    | some wbits =>
      if wbits ≠ s.params.n then .error .widthMismatch else .vector (operandPattern s s.params.n)
  | .read, s => if readLegal s.params then .scalar s.v else .readError
  | .fill f, s => .vector (if f then 2 ^ s.params.n - 1 else 0)
  | .getbit, s => .bitout (s.v.testBit (operandIndex s))
  | .setbit f, s =>
    if s.params.n ≤ operandIndex s then .error .indexOutOfRange
    else .vector (putBit s.v (operandIndex s) f)
  | .inc, s =>
    if s.params.wideDelta = .reject ∧ 2 ^ capacity s.params ≤ (operandSigned s).natAbs then .error .deltaTooWide
    else .vector (((s.v : Int) + operandSigned s) % 2 ^ s.params.n).toNat
  | .and, s => .result (s.v &&& operandB s, min s.params.n s.params.nb)
  | .or, s => .result (s.v ||| operandB s, max s.params.n s.params.nb)
  | .xor, s => .result (s.v ^^^ operandB s, max s.params.n s.params.nb)
  | .not, s => .result (2 ^ s.params.n - 1 - s.v, s.params.n)
  | .shl, s => .vector (shifted s.params.n s.v (operandSigned s))
  | .shr, s => .vector (shifted s.params.n s.v (-operandSigned s))
  | .cmp, s => .cmpout (if s.v < operandB s then -1 else if s.v = operandB s then 0 else 1)

/-! ## Each command has its effect -/

section
variable {s t : State}

theorem execLoad_effect {w : BitVec 3} (h : execLoad w s = .next t) : t = (effect (.load w) s).apply s := by
  obtain ⟨hw, rfl⟩ | ⟨wbits, hw, hne, rfl⟩ | ⟨hw, rfl⟩ := execLoad_cases h
  · simp only [effect, hw, Effect.apply]
  · simp only [effect, hw, if_pos hne, Effect.apply]
  · simp only [effect, hw, ne_eq, not_true_eq_false, if_false, Effect.apply,
      writeV_of_lt (operandPattern_lt s s.params.n)]

theorem execRead_effect (hv : s.v < 2 ^ s.params.n) (h : execRead s = .next t) : t = (effect .read s).apply s := by
  obtain ⟨hl, rfl⟩ | ⟨hl, rfl⟩ := execRead_cases h
  · simp only [effect, hl, if_true, Effect.apply, value_storageUnits hv]
  · simp only [effect, hl, Bool.false_eq_true, if_false, Effect.apply]

theorem cut_fill (p : Params) (f : Bool) :
    cut p (value (unitBits p) (fillUnits p f)) = if f then 2 ^ p.n - 1 else 0 := by
  rw [value_fillUnits]
  cases f
  · exact cut_of_lt (Nat.two_pow_pos _)
  · have hpos := Nat.two_pow_pos (capacity p)
    rw [if_pos rfl, if_pos rfl, cut_eq_mod (by omega)]
    refine Nat.eq_of_testBit_eq fun i => ?_
    have := n_le_capacity p
    simp only [Nat.testBit_mod_two_pow, Nat.testBit_two_pow_sub_one]
    by_cases hi : i < p.n
    · simp [hi, show i < capacity p by omega]
    · simp [hi]

theorem execFill_effect {f : Bool} (h : execFill f s = .next t) : t = (effect (.fill f) s).apply s := by
  rw [execFill_cases h, writeV_eq_setV, cut_fill]
  rfl

/-- An index at or past `N` needs no case of its own: `V` has no bit there (spec/42_bit_access.md R85). -/
theorem execGetbit_effect (hv : s.v < 2 ^ s.params.n) (h : execGetbit s = .next t) :
    t = (effect .getbit s).apply s := by
  obtain ⟨hge, rfl⟩ | ⟨-, rfl⟩ := execGetbit_cases h
  · have hbit : s.v.testBit (operandIndex s) = false :=
      Nat.testBit_lt_two_pow (Nat.lt_of_lt_of_le hv (Nat.pow_le_pow_right Nat.two_pos hge))
    rw [effect, hbit, Effect.apply]
  · rfl

theorem execSetbit_effect {f : Bool} (hv : s.v < 2 ^ s.params.n) (h : execSetbit f s = .next t) :
    t = (effect (.setbit f) s).apply s := by
  obtain ⟨hge, rfl⟩ | ⟨hlt, rfl⟩ := execSetbit_cases h
  · simp only [effect, if_pos hge, Effect.apply]
  · simp only [effect, if_neg (Nat.not_le.mpr hlt), Effect.apply, writeV_of_lt (putBit_lt f hv hlt)]

/-- What the adder or the subtractor leaves in the storage, as the sum with the signed delta (spec/43_add_sub.md
R92). -/
theorem value_incUnits (hv : s.v < 2 ^ s.params.n) :
    (value (unitBits s.params)
      (if operandSigned s > 0 then
        addUnits (unitBits s.params) (storageUnits s)
          (units (unitBits s.params) (unitCount s.params) (narrowed s.params (operandSigned s).natAbs))
      else
        subUnits (unitBits s.params) (storageUnits s)
          (units (unitBits s.params) (unitCount s.params) (narrowed s.params (operandSigned s).natAbs))) : Int)
      = ((s.v : Int) + operandSigned s) % 2 ^ capacity s.params := by
  have hlen : (storageUnits s).length =
      (units (unitBits s.params) (unitCount s.params) (narrowed s.params (operandSigned s).natAbs)).length := by
    rw [storageUnits_length, units_length]
  have hcap : unitBits s.params * (storageUnits s).length = capacity s.params := by
    rw [storageUnits_length, capacity, Nat.mul_comm]
  have hmag : value (unitBits s.params)
      (units (unitBits s.params) (unitCount s.params) (narrowed s.params (operandSigned s).natAbs)) =
      (operandSigned s).natAbs % 2 ^ capacity s.params := by
    rw [value_units, Nat.mul_comm, ← capacity, narrowed_mod]
  split
  · next hpos =>
    rw [value_addUnits hlen, value_storageUnits hv, hmag, hcap, Nat.add_mod_mod]
    push_cast
    rw [abs_of_pos hpos]
  · next hneg =>
    rw [value_subUnits hlen (storageUnits_bounded s) (units_bounded _ _ _), value_storageUnits hv, hmag, hcap]
    push_cast
    rw [Int.sub_emod_emod, abs_of_nonpos (by omega), sub_neg_eq_add]

theorem execInc_effect (hv : s.v < 2 ^ s.params.n) (h : execInc s = .next t) : t = (effect .inc s).apply s := by
  obtain ⟨hzero, rfl⟩ | ⟨-, hwide, hreject, rfl⟩ | ⟨-, hfits, rfl⟩ := execInc_cases h
  · have hsum : (((s.v : Int) + operandSigned s) % 2 ^ s.params.n).toNat = s.v := by
      rw [hzero, add_zero]
      exact_mod_cast Nat.mod_eq_of_lt hv
    have hfits : ¬ (s.params.wideDelta = .reject ∧ 2 ^ capacity s.params ≤ (operandSigned s).natAbs) := by
      simp [hzero]
    rw [effect, if_neg hfits, hsum, Effect.apply, setV_self]
  · rw [effect, if_pos ⟨hreject, by simpa [tooWide] using hwide⟩, Effect.apply]
  · have hfits : ¬ (s.params.wideDelta = .reject ∧ 2 ^ capacity s.params ≤ (operandSigned s).natAbs) := by
      rintro ⟨hreject, hwide⟩
      simp [tooWide, hreject, Nat.not_lt.mpr hwide] at hfits
    rw [effect, if_neg hfits, Effect.apply, writeV_eq_setV, cut_of_emod_capacity (value_incUnits hv)]

/-- A signed count of a shift in a direction, as a count to the left (spec/45_shift.md R103). -/
def leftCount : ShiftDir → Int → Int
  | .left, count => count
  | .right, count => -count

theorem leftCount_oppositeDir (dir : ShiftDir) (count : Int) :
    leftCount (oppositeDir dir) count = leftCount dir (-count) := by
  cases dir <;> simp [leftCount, oppositeDir]

/-- The barrel and the truncation mask together, in values, for a count of either direction (R105). -/
theorem cut_barrel {p : Params} {v : Nat} (hv : v < 2 ^ p.n) (dir : ShiftDir) (k : Nat) :
    cut p (barrel (capacity p) v k dir) = shifted p.n v (leftCount dir k) := by
  cases dir with
  | left => rw [barrel_left, cut_mod_capacity, shifted, leftCount, if_pos (Int.natCast_nonneg k), Int.natAbs_natCast]
  | right =>
    rw [barrel_right (lt_capacity hv), cut_of_lt (Nat.lt_of_le_of_lt (Nat.div_le_self v _) hv), shifted, leftCount,
      Int.natAbs_neg, Int.natAbs_natCast]
    split
    · obtain rfl : k = 0 := by omega
      rw [pow_zero, Nat.div_one, Nat.mul_one, Nat.mod_eq_of_lt hv]
    · rfl

theorem shiftBy_eq (hv : s.v < 2 ^ s.params.n) (dir : ShiftDir) :
    shiftBy dir s = completeOk (setV s (shifted s.params.n s.v (leftCount dir (operandSigned s)))) := by
  obtain ⟨hzero, h⟩ | ⟨-, h⟩ := shiftBy_cases dir s
  · have hsame : shifted s.params.n s.v (leftCount dir 0) = s.v := by
      cases dir <;> simp [shifted, leftCount, Nat.mod_eq_of_lt hv]
    rw [h, hzero, hsame, setV_self]
  · rw [h, writeV_eq_setV, cut_barrel hv]
    split
    · next hpos => rw [Int.natAbs_of_nonneg (by omega)]
    · next hneg => rw [leftCount_oppositeDir, Int.ofNat_natAbs_of_nonpos (by omega), neg_neg]

/-- Every command that completes has its effect, when `V` is within its width. -/
theorem exec_effect {i : Instr} (hv : s.v < 2 ^ s.params.n) (h : exec i s = .next t) : t = (effect i s).apply s := by
  have hub := unitBits_pos s.params
  have hb := operandB_lt s
  cases i with
  | load w => exact execLoad_effect h
  | read => exact execRead_effect hv h
  | fill f => exact execFill_effect h
  | getbit => exact execGetbit_effect hv h
  | setbit f => exact execSetbit_effect hv h
  | inc => exact execInc_effect hv h
  | and => cases h; rw [vecAnd_eq hub hv hb]; rfl
  | or => cases h; rw [vecOr_eq hub hv hb]; rfl
  | xor => cases h; rw [vecXor_eq hub hv hb]; rfl
  | not => cases h; rw [vecNot_eq hub hv]; rfl
  | shl => cases h; exact shiftBy_eq hv .left
  | shr => cases h; exact shiftBy_eq hv .right
  | cmp => cases h; rw [vecCompare_eq hub hv hb]; rfl

end

/-- Every command completes, whatever the state (spec/60_exceptions.md R111). -/
theorem exec_completes (i : Instr) (s : State) : ∃ t, exec i s = .next t := by
  cases i with
  | load w => simp only [exec, execLoad]; split <;> [skip; split] <;> exact ⟨_, rfl⟩
  | read => simp only [exec, execRead]; split <;> exact ⟨_, rfl⟩
  | getbit => simp only [exec, execGetbit]; split <;> exact ⟨_, rfl⟩
  | setbit f => simp only [exec, execSetbit]; split <;> exact ⟨_, rfl⟩
  | inc => simp only [exec, execInc]; split <;> [skip; split] <;> exact ⟨_, rfl⟩
  | fill | and | or | xor | not | shl | shr | cmp => exact ⟨_, rfl⟩

/-- The meaning of every command in values. -/
theorem exec_eq_effect {i : Instr} {s : State} (hv : s.v < 2 ^ s.params.n) :
    exec i s = .next ((effect i s).apply s) := by
  obtain ⟨t, h⟩ := exec_completes i s
  rw [h, exec_effect hv h]

/-- What running the sampled command writes, an illegal word included (spec/30_encoding.md R66). -/
def sampledEffect (s : State) : Effect :=
  match decode s.sampled.cmd with
  | .ok i => effect i s
  | .error _ => .error .illegalCommand

theorem sampledEffect_of_ok {s : State} {i : Instr} (h : decode s.sampled.cmd = .ok i) :
    sampledEffect s = effect i s := by rw [sampledEffect, h]

theorem sampledEffect_of_error {s : State} {e : IllegalWord} (h : decode s.sampled.cmd = .error e) :
    sampledEffect s = .error .illegalCommand := by rw [sampledEffect, h]

theorem runSampled_of_ok {s : State} {i : Instr} (h : decode s.sampled.cmd = .ok i) :
    runSampled s = exec i s := by rw [runSampled, h]

theorem runSampled_of_error {s : State} {e : IllegalWord} (h : decode s.sampled.cmd = .error e) :
    runSampled s = .next (raiseError s .illegalCommand) := by rw [runSampled, h]

theorem runSampled_eq_effect {s : State} (hv : s.v < 2 ^ s.params.n) :
    runSampled s = .next ((sampledEffect s).apply s) := by
  cases h : decode s.sampled.cmd with
  | ok i => rw [runSampled_of_ok h, sampledEffect_of_ok h, exec_eq_effect hv]
  | error e => rw [runSampled_of_error h, sampledEffect_of_error h]; rfl

end Sys2Proof.Machine

/-! PROOF. The invariant of the block: an effect that fits its state keeps it, every command's effect fits, and reset
and acceptance keep it (spec/10_state.md R22, R26, R31, R35; spec/60_exceptions.md R112). -/

namespace Sys2Proof.Machine

/-- What an effect must write to keep the invariant. -/
def Effect.Fits (s : State) : Effect → Prop
  | .vector x => x < 2 ^ s.params.n
  | .result r => r.1 < 2 ^ r.2 ∧ 1 ≤ r.2 ∧ r.2 ≤ max s.params.n s.params.nb
  | .cmpout r => compareCode r ≠ 2#2
  | .error _ | .readError | .scalar _ | .bitout _ => True

section
variable {s : State}

theorem completeOk_inv (hs : s.Inv) : (completeOk s).Inv := by
  obtain ⟨hwf, hv, hres, hone, hmax, hcmp, -, -⟩ := hs
  exact ⟨hwf, hv, hres, hone, hmax, hcmp, by simp, by simp⟩

theorem raiseError_inv (hs : s.Inv) (e : Error) : (raiseError s e).Inv := by
  obtain ⟨hwf, hv, hres, hone, hmax, hcmp, -, -⟩ := hs
  exact ⟨hwf, hv, hres, hone, hmax, hcmp, errorCode_ne_seven e, fun _ => rfl⟩

theorem setV_inv (hs : s.Inv) {x : Nat} (hx : x < 2 ^ s.params.n) : (setV s x).Inv := by
  obtain ⟨hwf, -, hrest⟩ := hs
  exact ⟨hwf, hx, hrest⟩

theorem writeRes_inv (hs : s.Inv) {r : Nat × Nat} (hval : r.1 < 2 ^ r.2) (hone : 1 ≤ r.2)
    (hmax : r.2 ≤ max s.params.n s.params.nb) : (writeRes s r).Inv := by
  obtain ⟨hwf, hv, -, -, -, hrest⟩ := hs
  exact ⟨hwf, hv, hval, hone, hmax, hrest⟩

theorem writeCmpout_inv (hs : s.Inv) {r : Int} (hr : compareCode r ≠ 2#2) : (writeCmpout s r).Inv := by
  obtain ⟨hwf, hv, hres, hone, hmax, -, hrest⟩ := hs
  exact ⟨hwf, hv, hres, hone, hmax, hr, hrest⟩

/-- The invariant says nothing of `SCALAR`. -/
theorem writeScalar_inv (hs : s.Inv) (x : Nat) : (writeScalar s x).Inv := hs

/-- The invariant says nothing of `BITOUT`. -/
theorem writeBitout_inv (hs : s.Inv) (b : Bool) : (writeBitout s b).Inv := hs

theorem Effect.apply_inv {e : Effect} (hs : s.Inv) (he : e.Fits s) : (e.apply s).Inv := by
  cases e with
  | error e => exact raiseError_inv hs e
  | readError => exact raiseError_inv (writeScalar_inv hs 0) _
  | vector x => exact completeOk_inv (setV_inv hs he)
  | scalar x => exact completeOk_inv (writeScalar_inv hs x)
  | bitout b => exact completeOk_inv (writeBitout_inv hs b)
  | result r =>
    obtain ⟨hval, hone, hmax⟩ := he
    exact completeOk_inv (writeRes_inv hs hval hone hmax)
  | cmpout r => exact completeOk_inv (writeCmpout_inv hs he)

end

/-- A shift stays within the width (spec/45_shift.md R102). -/
theorem shifted_lt {n v : Nat} (hv : v < 2 ^ n) (count : Int) : shifted n v count < 2 ^ n := by
  unfold shifted
  split
  · exact Nat.mod_lt _ (Nat.two_pow_pos n)
  · exact Nat.lt_of_le_of_lt (Nat.div_le_self v _) hv

/-- A number within a width is within a larger one. -/
theorem lt_two_pow_max {x w w' : Nat} (h : x < 2 ^ w) : x < 2 ^ max w w' ∧ x < 2 ^ max w' w :=
  ⟨Nat.lt_of_lt_of_le h (Nat.pow_le_pow_right Nat.two_pos (Nat.le_max_left w w')),
    Nat.lt_of_lt_of_le h (Nat.pow_le_pow_right Nat.two_pos (Nat.le_max_right w' w))⟩

/-- AND narrows: it is below both operands (spec/44_logic.md R96). -/
theorem and_lt_two_pow_min {x y w w' : Nat} (hx : x < 2 ^ w) (hy : y < 2 ^ w') : x &&& y < 2 ^ min w w' := by
  rcases Nat.le_total w w' with h | h
  · rw [Nat.min_eq_left h]; exact Nat.lt_of_le_of_lt Nat.and_le_left hx
  · rw [Nat.min_eq_right h]; exact Nat.lt_of_le_of_lt Nat.and_le_right hy

/-- The comparison's result is one of the three that CMPOUT has a code for (spec/10_state.md R31). -/
theorem compareCode_ne_two (x y : Nat) :
    compareCode (if x < y then -1 else if x = y then 0 else 1) ≠ 2#2 := by
  split
  · decide
  · split <;> decide

theorem effect_fits {s : State} (hs : s.Inv) (i : Instr) : (effect i s).Fits s := by
  obtain ⟨⟨hn, hnb⟩, hv, -⟩ := hs
  have hb := operandB_lt s
  have hpos := Nat.two_pow_pos s.params.n
  cases i with
  | load w =>
    simp only [effect]
    split
    · trivial
    · split
      · trivial
      · exact operandPattern_lt s s.params.n
  | read => simp only [effect]; split <;> trivial
  | fill f => cases f <;> simp [effect, Effect.Fits]
  | getbit => trivial
  | setbit f =>
    simp only [effect]
    split
    · trivial
    · next hi => exact putBit_lt f hv (Nat.lt_of_not_le hi)
  | inc =>
    simp only [effect]
    split
    · trivial
    · have hlt := Int.emod_lt_of_pos ((s.v : Int) + operandSigned s) (show (0 : Int) < 2 ^ s.params.n by positivity)
      have hpow : ((2 ^ s.params.n : Nat) : Int) = 2 ^ s.params.n := by push_cast; rfl
      simp only [Effect.Fits]
      omega
  | and => exact ⟨and_lt_two_pow_min hv hb, Nat.le_min.mpr ⟨hn, hnb⟩, by simp only; omega⟩
  | or => exact ⟨Nat.or_lt_two_pow (lt_two_pow_max hv).1 (lt_two_pow_max hb).2, by simp only; omega, Nat.le_refl _⟩
  | xor => exact ⟨Nat.xor_lt_two_pow (lt_two_pow_max hv).1 (lt_two_pow_max hb).2, by simp only; omega, Nat.le_refl _⟩
  | not => exact ⟨by simp only; omega, hn, Nat.le_max_left _ _⟩
  | shl => exact shifted_lt hv _
  | shr => exact shifted_lt hv _
  | cmp => exact compareCode_ne_two s.v (operandB s)

theorem sampledEffect_fits {s : State} (hs : s.Inv) : (sampledEffect s).Fits s := by
  cases h : decode s.sampled.cmd with
  | ok i => rw [sampledEffect_of_ok h]; exact effect_fits hs i
  | error e => rw [sampledEffect_of_error h]; trivial

/-- Completing the command in progress keeps the invariant. -/
theorem runSampled_inv {s t : State} (hs : s.Inv) (h : runSampled s = .next t) : t.Inv := by
  obtain ⟨-, hv, -⟩ := id hs
  rw [runSampled_eq_effect hv] at h
  cases h
  exact Effect.apply_inv hs (sampledEffect_fits hs)

/-- Acceptance writes only the port, of which the invariant says nothing. -/
theorem accept_inv {s : State} (hs : s.Inv) (r : Request) (rest : List HostEvent) : (accept s r rest).Inv := hs

/-- The reset state meets the invariant: every register is 0 and `RES_W` is `N` (spec/10_state.md R40). -/
theorem resetOf_inv {p : Params} (hp : p.Wf) : (State.resetOf p).Inv := by
  obtain ⟨hn, hnb⟩ := hp
  exact ⟨⟨hn, hnb⟩, Nat.two_pow_pos p.n, Nat.two_pow_pos p.n, hn, Nat.le_max_left _ _, by simp, by simp, by simp⟩

theorem hardReset_inv {s : State} (hp : s.params.Wf) (rest : List HostEvent) : (hardReset s rest).Inv :=
  resetOf_inv hp

/-- Settles O13, by the four things one step can do. -/
theorem stepKeepsInvariant : Obligations.StepKeepsInvariant := by
  intro s t hs h
  obtain ⟨hwf, -⟩ := id hs
  obtain ⟨rest, -, rfl⟩ | ⟨-, -, rfl⟩ | ⟨-, -, hrun⟩ | ⟨r, rest, -, -, hrun⟩ := step_cases h
  · exact hardReset_inv hwf rest
  · exact hs
  · exact runSampled_inv hs hrun
  · exact runSampled_inv (accept_inv hs r rest) hrun

/-- Settles O14. -/
theorem resetMeetsInvariant : Obligations.ResetMeetsInvariant :=
  ⟨fun _ => resetOf_inv, resetOf_inv (by decide)⟩

end Sys2Proof.Machine

/-! PROOF. The granularity shows in no value (spec/10_state.md R24): in values, every command but READ has the same
effect on two instances that differ in `UNIT_BITS` alone, and READ writes only what may differ. -/

namespace Sys2Proof.Machine

/-! ## The step, case by case -/

theorem step_of_reset {s : State} {rest : List HostEvent} (h : s.inputs = .reset :: rest) :
    step s = .next (hardReset s rest) := by
  unfold step advance
  rw [h]

theorem step_of_no_input {s : State} (hi : s.inputs = []) (hh : s.handshake = .idle) : step s = .next s := by
  unfold step advance
  rw [hi, hh]

theorem step_of_command {s : State} {r : Request} {rest : List HostEvent} (hi : s.inputs = .command r :: rest)
    (hh : s.handshake = .idle) : step s = runSampled (accept s r rest) := by
  unfold step advance
  rw [hi, hh]

theorem step_of_busy {s : State} (hi : ∀ rest, s.inputs ≠ .reset :: rest) (hh : s.handshake = .busy) :
    step s = runSampled s := by
  unfold step advance
  rw [hh]
  split
  · next hreset => exact absurd hreset (hi _)
  · rfl
  · next h => cases h
  · next h => cases h

/-! ## Operations on two instances that agree -/

section
variable {s t : State}

/-- The relation every pair of operations keeps: the values go on agreeing, and so does the status if it did. -/
def KeepsAgreement (s t s' t' : State) : Prop :=
  SameValues s' t' ∧ (SameStatus s t → SameStatus s' t')

/-- Reset leaves nothing that depends on the granularity (spec/10_state.md R40). -/
theorem hardReset_keepsAgreement (h : SameValues s t) (rest : List HostEvent) :
    KeepsAgreement s t (hardReset s rest) (hardReset t rest) := by
  obtain ⟨hn, hnb, hwide, -⟩ := h
  exact ⟨⟨hn, hnb, hwide, rfl, rfl, hn, rfl, rfl, rfl, rfl, rfl⟩, fun _ => ⟨rfl, rfl, rfl⟩⟩

theorem accept_keepsAgreement (h : SameValues s t) (r : Request) (rest : List HostEvent) :
    KeepsAgreement s t (accept s r rest) (accept t r rest) := by
  obtain ⟨hn, hnb, hwide, hv, hres, hresW, hbit, hcmp, -, -, -⟩ := h
  exact ⟨⟨hn, hnb, hwide, hv, hres, hresW, hbit, hcmp, rfl, rfl, rfl⟩, id⟩

/-- One effect does the same to both. -/
theorem Effect.apply_keepsAgreement (h : SameValues s t) (e : Effect) :
    KeepsAgreement s t (e.apply s) (e.apply t) := by
  obtain ⟨hn, hnb, hwide, hv, hres, hresW, hbit, hcmp, -, hsampled, hinputs⟩ := h
  cases e with
  | error | readError | vector | scalar | bitout | result | cmpout =>
    simp +contextual [KeepsAgreement, Effect.apply, SameValues, SameStatus, hn, hnb, hwide, hv, hres, hresW, hbit,
      hcmp, hsampled, hinputs]

/-! ## The effects of two instances that agree -/

/-- Under WRAP no effect but READ's mentions `UNIT_BITS` (spec/43_add_sub.md R92, spec/44_logic.md R101,
spec/45_shift.md R105, spec/46_compare.md R108). -/
theorem effect_eq_of_sameValues (h : SameValues s t) (hwrap : s.params.wideDelta = .wrap) {i : Instr}
    (hi : i ≠ .read) : effect i t = effect i s := by
  obtain ⟨hn, hnb, hwide, hv, -, -, -, -, -, hsampled, -⟩ := h
  have hindex : operandIndex t = operandIndex s := by rw [operandIndex, operandIndex, hsampled]
  have hsigned : operandSigned t = operandSigned s := by rw [operandSigned, operandSigned, hsampled]
  have hb : operandB t = operandB s := by rw [operandB, operandB, hsampled, hnb]
  have hpattern (w : Nat) : operandPattern t w = operandPattern s w := by
    rw [operandPattern, operandPattern, hsampled]
  cases i with
  | read => exact absurd rfl hi
  | inc => simp [effect, hwide, hwrap, hn, hv, hsigned]
  | load | fill | getbit | setbit | and | or | xor | not | shl | shr | cmp =>
    simp only [effect, hn, hnb, hv, hindex, hsigned, hb, hpattern]

/-- READ's legality may differ between the two (spec/40_construct_convert.md R76), its values may not. -/
theorem read_sameValues (h : SameValues s t) : SameValues ((effect .read s).apply s) ((effect .read t).apply t) := by
  obtain ⟨hn, hnb, hwide, hv, hres, hresW, hbit, hcmp, -, hsampled, hinputs⟩ := h
  cases hs : readLegal s.params <;> cases ht : readLegal t.params <;>
    simp [effect, hs, ht, Effect.apply, SameValues, hn, hnb, hwide, hv, hres, hresW, hbit, hcmp, hsampled, hinputs]

theorem sampledEffect_eq_of_sameValues (h : SameValues s t) (hwrap : s.params.wideDelta = .wrap)
    (hread : decode s.sampled.cmd ≠ .ok .read) : sampledEffect t = sampledEffect s := by
  obtain ⟨-, -, -, -, -, -, -, -, -, hsampled, -⟩ := id h
  cases hd : decode s.sampled.cmd with
  | ok i =>
    rw [sampledEffect_of_ok hd, sampledEffect_of_ok (by rw [hsampled, hd])]
    exact effect_eq_of_sameValues h hwrap fun hi => hread (by rw [hd, hi])
  | error e => rw [sampledEffect_of_error hd, sampledEffect_of_error (by rw [hsampled, hd])]

/-! ## One command and one step of both -/

/-- Running the sampled command in both: READ may tell them apart in the status alone. -/
theorem runSampled_keepsAgreement (hv : s.v < 2 ^ s.params.n) (hwrap : s.params.wideDelta = .wrap)
    (h : SameValues s t) :
    ∃ s' t', runSampled s = .next s' ∧ runSampled t = .next t' ∧ SameValues s' t' ∧
      (SameStatus s t → decode s.sampled.cmd ≠ .ok .read → SameStatus s' t') := by
  obtain ⟨hn, -, -, hvt, -, -, -, -, -, hsampled, -⟩ := id h
  refine ⟨_, _, runSampled_eq_effect hv, runSampled_eq_effect (by rwa [hvt, hn]), ?_⟩
  by_cases hread : decode s.sampled.cmd = .ok .read
  · rw [sampledEffect_of_ok hread, sampledEffect_of_ok (by rw [hsampled, hread])]
    exact ⟨read_sameValues h, fun _ hne => absurd hread hne⟩
  · rw [sampledEffect_eq_of_sameValues h hwrap hread]
    obtain ⟨hvalues, hstatus⟩ := Effect.apply_keepsAgreement h (sampledEffect s)
    exact ⟨hvalues, fun hsame _ => hstatus hsame⟩

/-- The two instances step to states that agree in values, and in the status too when no READ runs. -/
def StepsAgree (s t : State) : Prop :=
  ∃ s' t', step s = .next s' ∧ step t = .next t' ∧ SameValues s' t' ∧
    (SameStatus s t →
      (s.handshake = .busy → decode s.sampled.cmd ≠ .ok .read) →
      (∀ r rest, s.inputs = .command r :: rest → decode r.cmd ≠ .ok .read) →
      SameStatus s' t')

theorem stepsAgree_of_reset (h : SameValues s t) {rest : List HostEvent} (hi : s.inputs = .reset :: rest) :
    StepsAgree s t := by
  obtain ⟨-, -, -, -, -, -, -, -, -, -, hinputs⟩ := id h
  obtain ⟨hvalues, hstatus⟩ := hardReset_keepsAgreement h rest
  exact ⟨_, _, step_of_reset hi, step_of_reset (hinputs.trans hi), hvalues, fun hsame _ _ => hstatus hsame⟩

theorem stepsAgree_of_no_input (h : SameValues s t) (hi : s.inputs = []) (hh : s.handshake = .idle) :
    StepsAgree s t := by
  obtain ⟨-, -, -, -, -, -, -, -, hhand, -, hinputs⟩ := id h
  exact ⟨s, t, step_of_no_input hi hh, step_of_no_input (hinputs.trans hi) (hhand.trans hh), h,
    fun hsame _ _ => hsame⟩

theorem stepsAgree_of_busy (hv : s.v < 2 ^ s.params.n) (hwrap : s.params.wideDelta = .wrap) (h : SameValues s t)
    (hi : ∀ rest, s.inputs ≠ .reset :: rest) (hh : s.handshake = .busy) : StepsAgree s t := by
  obtain ⟨-, -, -, -, -, -, -, -, hhand, -, hinputs⟩ := id h
  obtain ⟨s', t', hs, ht, hvalues, hstatus⟩ := runSampled_keepsAgreement hv hwrap h
  rw [← step_of_busy hi hh] at hs
  rw [← step_of_busy (by rwa [hinputs]) (hhand.trans hh)] at ht
  exact ⟨s', t', hs, ht, hvalues, fun hsame hread _ => hstatus hsame (hread hh)⟩

theorem stepsAgree_of_command (hv : s.v < 2 ^ s.params.n) (hwrap : s.params.wideDelta = .wrap) (h : SameValues s t)
    {r : Request} {rest : List HostEvent} (hi : s.inputs = .command r :: rest) (hh : s.handshake = .idle) :
    StepsAgree s t := by
  obtain ⟨-, -, -, -, -, -, -, -, hhand, -, hinputs⟩ := id h
  obtain ⟨haccept, hport⟩ := accept_keepsAgreement h r rest
  obtain ⟨s', t', hs, ht, hvalues, hstatus⟩ := runSampled_keepsAgreement (s := accept s r rest) hv hwrap haccept
  rw [← step_of_command hi hh] at hs
  rw [← step_of_command (hinputs.trans hi) (hhand.trans hh)] at ht
  exact ⟨s', t', hs, ht, hvalues, fun hsame _ hread => hstatus (hport hsame) (hread r rest hi)⟩

end

/-- Settles O50: a simulation between the two granularities, by what heads the host's list and the handshake. -/
theorem granularityIsInvisibleInValues : Obligations.GranularityIsInvisibleInValues := by
  intro s t hinv hwrap h
  obtain ⟨-, hv, -⟩ := hinv
  show StepsAgree s t
  match hi : s.inputs, hh : s.handshake with
  | .reset :: _, _ => exact stepsAgree_of_reset h hi
  | [], .idle => exact stepsAgree_of_no_input h hi hh
  | .command _ :: _, .idle => exact stepsAgree_of_command hv hwrap h hi hh
  | [], .busy => exact stepsAgree_of_busy hv hwrap h (by simp [hi]) hh
  | .command _ :: _, .busy => exact stepsAgree_of_busy hv hwrap h (by simp [hi]) hh

end Sys2Proof.Machine

/-! PROOF. The truncation invariant in the storage, and what commands leave alone (spec/10_state.md R22, R23, R35,
R36): each frame is read off the shapes that a command's next state can have. -/

namespace Sys2Proof.Machine

/-! ## The storage -/

theorem getD_eq_lsu {us : List Nat} {j : Nat} (h : j < us.length) : us.getD (us.length - 1 - j) 0 = lsu us j := by
  rw [lsu, if_pos h]

section
variable {s : State}

/-- Past `N` no bit of the storage is set (spec/10_state.md R22). -/
theorem storageUnits_padding (hv : s.v < 2 ^ s.params.n) {p : Nat} (hn : s.params.n ≤ p)
    (hcap : p < capacity s.params) :
    ((storageUnits s).getD (unitCount s.params - 1 - p / unitBits s.params) 0).testBit (p % unitBits s.params)
      = false := by
  have hub := unitBits_pos s.params
  have hj : p / unitBits s.params < (storageUnits s).length := by
    rw [storageUnits_length]
    exact Nat.div_lt_of_lt_mul (by rwa [Nat.mul_comm])
  have hbit : s.v.testBit p = false :=
    Nat.testBit_lt_two_pow (Nat.lt_of_lt_of_le hv (Nat.pow_le_pow_right Nat.two_pos hn))
  rw [← storageUnits_length, getD_eq_lsu hj, storageUnits, unitCount, lsu_units_testBit hub (lt_storage hub hv), hbit]

/-- The partial top unit holds the `R` bits above the full ones, and no more (R22). -/
theorem storageUnits_top_lt (hv : s.v < 2 ^ s.params.n) (hr : topBits s.params ≠ 0) :
    (storageUnits s).headD 0 < 2 ^ topBits s.params := by
  have hfull : s.v / 2 ^ (unitBits s.params * (s.params.n / unitBits s.params)) < 2 ^ topBits s.params := by
    refine Nat.div_lt_of_lt_mul ?_
    rwa [← Nat.pow_add, topBits, Nat.div_add_mod]
  rw [storageUnits, unitCount, unitsFor_of_partial (unitBits_pos s.params) hr, units, List.headD_cons]
  exact Nat.lt_of_le_of_lt (Nat.mod_le _ _) hfull

end

/-- Settles O15, from the invariant of the next state. -/
theorem truncationInvariantHoldsInStorage : Obligations.TruncationInvariantHoldsInStorage := by
  intro s t hs h
  obtain ⟨-, hv, -⟩ := stepKeepsInvariant s t hs h
  exact ⟨fun p => storageUnits_padding hv, hv, storageUnits_top_lt hv⟩

/-! ## Frames -/

section
variable {i : Instr} {s t : State}

theorem CommandResult.v_eq (h : CommandResult i s t)
    (hi : i = .read ∨ i = .getbit ∨ i = .and ∨ i = .or ∨ i = .xor ∨ i = .not ∨ i = .cmp) : t.v = s.v := by
  cases h with
  | vector x hm => rcases hi with rfl | rfl | rfl | rfl | rfl | rfl | rfl <;> simp at hm
  | error | readError | noop | scalar | bitout | result | cmpout => rfl

/-- An error writes neither `V` nor `RES` (spec/10_state.md R23); every other shape ends with `ERR = 0`. -/
theorem CommandResult.v_res_eq_of_error (h : CommandResult i s t) (herr : t.err ≠ 0#3) :
    t.v = s.v ∧ t.res = s.res := by
  cases h with
  | error | readError => exact ⟨rfl, rfl⟩
  | noop | vector | scalar | bitout | result | cmpout => exact absurd rfl herr

/-- `ERRS` is set by an error and kept by success (R35). -/
theorem CommandResult.errs_eq (h : CommandResult i s t) : t.errs = if t.err = 0#3 then s.errs else 1#1 := by
  cases h with
  | error e => exact (if_neg (errorCode_ne_zero e)).symm
  | readError => exact (if_neg (errorCode_ne_zero .readbackUnsupportedShape)).symm
  | noop | vector | scalar | bitout | result | cmpout => rfl

theorem CommandResult.scalar_eq (h : CommandResult i s t) (hi : i ≠ .read) : t.scalar = s.scalar := by
  cases h with
  | readError hread | scalar x hread => exact absurd hread hi
  | error | noop | vector | bitout | result | cmpout => rfl

theorem CommandResult.bitout_eq (h : CommandResult i s t) (hi : i ≠ .getbit) : t.bitout = s.bitout := by
  cases h with
  | bitout b hget => exact absurd hget hi
  | error | readError | noop | vector | scalar | result | cmpout => rfl

theorem CommandResult.cmpout_eq (h : CommandResult i s t) (hi : i ≠ .cmp) : t.cmpout = s.cmpout := by
  cases h with
  | cmpout r hcmp => exact absurd hcmp hi
  | error | readError | noop | vector | scalar | bitout | result => rfl

theorem CommandResult.res_eq (h : CommandResult i s t) (hi : i ≠ .and ∧ i ≠ .or ∧ i ≠ .xor ∧ i ≠ .not) :
    t.res = s.res ∧ t.resW = s.resW := by
  cases h with
  | result r hlogic =>
    obtain ⟨hand, hor, hxor, hnot⟩ := hi
    simp [hand, hor, hxor, hnot] at hlogic
  | error | readError | noop | vector | scalar | bitout | cmpout => exact ⟨rfl, rfl⟩

/-- No command writes the ports or the host's list. -/
theorem CommandResult.port_eq (h : CommandResult i s t) : t.sampled = s.sampled ∧ t.inputs = s.inputs := by
  cases h with
  | error | readError | noop | vector | scalar | bitout | result | cmpout => exact ⟨rfl, rfl⟩

theorem runSampled_errs (h : runSampled s = .next t) : t.errs = if t.err = 0#3 then s.errs else 1#1 := by
  obtain ⟨i, -, hexec⟩ | ⟨e, -, rfl⟩ := runSampled_cases h
  · exact (exec_shape hexec).errs_eq
  · exact (if_neg (errorCode_ne_zero .illegalCommand)).symm

theorem runSampled_errs_of_set (hs : s.errs = 1#1) (h : runSampled s = .next t) : t.errs = 1#1 := by
  rw [runSampled_errs h, hs, ite_self]

theorem runSampled_v_res_of_error (h : runSampled s = .next t) (herr : t.err ≠ 0#3) :
    t.v = s.v ∧ t.res = s.res := by
  obtain ⟨i, -, hexec⟩ | ⟨e, -, rfl⟩ := runSampled_cases h
  · exact (exec_shape hexec).v_res_eq_of_error herr
  · exact ⟨rfl, rfl⟩

end

/-- Settles O16, by the shapes of a next state that a command which is no mutator, or an error, can have. -/
theorem onlyMutatorsWriteV : Obligations.OnlyMutatorsWriteV := by
  refine ⟨fun i s hi => ?_, fun s t h herr => runSampled_v_res_of_error h herr⟩
  obtain ⟨t, ht⟩ := exec_completes i s
  exact ⟨t, ht, (exec_shape ht).v_eq hi⟩

/-- Settles O19: every command keeps a set `ERRS`, and of the other steps reset alone writes it. -/
theorem errsIsSticky : Obligations.ErrsIsSticky := by
  refine ⟨fun s t => runSampled_errs, fun s t hs hno h => ?_, fun s rest hi => ⟨_, step_of_reset hi, rfl⟩⟩
  obtain ⟨rest, hi, -⟩ | ⟨-, -, rfl⟩ | ⟨-, -, hrun⟩ | ⟨r, rest, -, -, hrun⟩ := step_cases h
  · exact absurd hi (hno rest)
  · exact hs
  · exact runSampled_errs_of_set hs hrun
  · exact runSampled_errs_of_set (s := accept s r rest) hs hrun

/-- Settles O20: each output has its one lemma on the shapes of a next state. -/
theorem unnamedOutputsKeepTheirValue : Obligations.UnnamedOutputsKeepTheirValue := by
  intro i s
  obtain ⟨t, ht⟩ := exec_completes i s
  have hshape := exec_shape ht
  exact ⟨t, ht, hshape.scalar_eq, hshape.bitout_eq, hshape.cmpout_eq, hshape.res_eq, hshape.params_eq,
    hshape.port_eq⟩

/-! ## Operands a command does not read -/

/-- Another number on the `B` port. -/
def withB (s : State) (b : Nat) : State := { s with sampled := { s.sampled with b := b } }

/-- Another pattern on the `DATA` port. -/
def withData (s : State) (d : Scalar) : State := { s with sampled := { s.sampled with data := d } }

theorem shiftBy_withB (dir : ShiftDir) (s : State) (b : Nat) :
    shiftBy dir (withB s b) = withB (shiftBy dir s) b := by
  have hsigned : operandSigned (withB s b) = operandSigned s := rfl
  simp only [shiftBy, hsigned]
  split <;> rfl

/-- A command that reads no `B` takes the same branch, and writes the same, for another one (spec/10_state.md R27). -/
theorem exec_withB {i : Instr} (hand : i ≠ .and) (hor : i ≠ .or) (hxor : i ≠ .xor) (hcmp : i ≠ .cmp) (s : State)
    (b : Nat) : ∃ t, exec i s = .next t ∧ exec i (withB s b) = .next (withB t b) := by
  cases i with
  | and => exact absurd rfl hand
  | or => exact absurd rfl hor
  | xor => exact absurd rfl hxor
  | cmp => exact absurd rfl hcmp
  | fill | not => exact ⟨_, rfl, rfl⟩
  | shl => exact ⟨_, rfl, congrArg _ (shiftBy_withB .left s b)⟩
  | shr => exact ⟨_, rfl, congrArg _ (shiftBy_withB .right s b)⟩
  | load w =>
    simp only [exec, execLoad]
    cases loadWidth w with
    | none => exact ⟨_, rfl, rfl⟩
    | some wbits =>
      by_cases hw : wbits ≠ s.params.n
      · exact ⟨_, if_pos hw, if_pos hw⟩
      · exact ⟨_, if_neg hw, if_neg hw⟩
  | read =>
    by_cases hlegal : readLegal s.params = true
    · exact ⟨_, if_pos hlegal, if_pos hlegal⟩
    · exact ⟨_, if_neg hlegal, if_neg hlegal⟩
  | getbit | setbit =>
    by_cases hindex : s.params.n ≤ operandIndex s
    · exact ⟨_, if_pos hindex, if_pos hindex⟩
    · exact ⟨_, if_neg hindex, if_neg hindex⟩
  | inc =>
    by_cases hzero : operandSigned s = 0
    · exact ⟨_, if_pos hzero, if_pos hzero⟩
    · by_cases hreject : tooWide s.params (operandSigned s).natAbs && s.params.wideDelta == .reject
      · exact ⟨_, (if_neg hzero).trans (if_pos hreject), (if_neg hzero).trans (if_pos hreject)⟩
      · exact ⟨_, (if_neg hzero).trans (if_neg hreject), (if_neg hzero).trans (if_neg hreject)⟩

/-- The same for `DATA` and the commands that do not read it (spec/10_state.md R28, spec/30_encoding.md R61). -/
theorem exec_withData {i : Instr}
    (hi : i = .read ∨ (∃ f, i = .fill f) ∨ i = .and ∨ i = .or ∨ i = .xor ∨ i = .not ∨ i = .cmp) (s : State)
    (d : Scalar) : ∃ t, exec i s = .next t ∧ exec i (withData s d) = .next (withData t d) := by
  obtain rfl | ⟨f, rfl⟩ | rfl | rfl | rfl | rfl | rfl := hi
  case inl =>
    by_cases hlegal : readLegal s.params = true
    · exact ⟨_, if_pos hlegal, if_pos hlegal⟩
    · exact ⟨_, if_neg hlegal, if_neg hlegal⟩
  all_goals exact ⟨_, rfl, rfl⟩

/-- Settles O21, by the branches each command takes. -/
theorem unusedOperandsAreIgnored : Obligations.UnusedOperandsAreIgnored :=
  ⟨fun _ s b hand hor hxor hcmp => exec_withB hand hor hxor hcmp s b, fun _ s d hi => exec_withData hi s d⟩

/-! ## Reset and the status word -/

theorem units_zero (ub c : Nat) : units ub c 0 = List.replicate c 0 := by
  induction c with
  | zero => rfl
  | succ c ih => rw [units, ih, Nat.zero_div, Nat.zero_mod, List.replicate_succ]

/-- Settles O8: a step with reset next is the reset, whatever the handshake. -/
theorem resetSetsEveryPieceOfState : Obligations.ResetSetsEveryPieceOfState := by
  intro s rest hi
  exact ⟨hardReset s rest, step_of_reset hi, rfl, units_zero _ _, rfl, rfl, rfl, rfl, rfl, rfl, rfl, rfl, rfl, rfl⟩

/-- Appending a low field adds it below the shifted high one. -/
theorem toNat_append_eq_add {m n : Nat} (hi : BitVec m) (lo : BitVec n) :
    (hi ++ lo).toNat = lo.toNat + 2 ^ n * hi.toNat := by
  rw [BitVec.toNat_append, ← Nat.shiftLeft_add_eq_or_of_lt lo.isLt, Nat.shiftLeft_eq, Nat.mul_comm, Nat.add_comm]

/-- The status word as a number (spec/10_state.md R33). -/
theorem statusWord_toNat (s : State) :
    (statusWord s).toNat = s.err.toNat + 8 * s.errs.toNat + 16 * s.bitout.toNat + 32 * s.cmpout.toNat := by
  simp only [statusWord, toNat_append_eq_add, BitVec.toNat_zero]
  ring

/-- A field of the status word from its number: the `len` bits from position `lo`. -/
theorem extractLsb'_eq_iff {w lo len : Nat} (x : BitVec w) (y : BitVec len) :
    x.extractLsb' lo len = y ↔ x.toNat / 2 ^ lo % 2 ^ len = y.toNat := by
  rw [← BitVec.toNat_inj, BitVec.extractLsb'_toNat, Nat.shiftRight_eq_div_pow]

/-- Settles O54, by arithmetic on the word's number and the bounds of its fields. -/
theorem statusLayout : Obligations.StatusLayout := by
  intro s instant hidle
  have hword := statusWord_toNat s
  have herr := s.err.isLt
  have herrs := s.errs.isLt
  have hbit := s.bitout.isLt
  have hcmp := s.cmpout.isLt
  simp only [extractLsb'_eq_iff, hword]
  refine ⟨?_, by omega, by omega, by omega, by omega, by omega⟩
  simp only [readView, hidle, readIdleView, hword]

end Sys2Proof.Machine

/-! PROOF. What a read of the views returns, and its width (spec/20_memory.md R42, R43, R46, R48). -/

namespace Sys2Proof.Machine

/-- Unit `k` of an image from the most-significant end (spec/00_scope.md R13). -/
theorem getD_units {c k : Nat} (ub v : Nat) (h : k < c) :
    (units ub c v).getD k 0 = v / 2 ^ (ub * (c - 1 - k)) % 2 ^ ub := by
  have hindex : c - 1 - (c - 1 - k) = k := by omega
  have hlsu := getD_eq_lsu (us := units ub c v) (j := c - 1 - k) (by rw [units_length]; omega)
  rwa [units_length, hindex, lsu_units, if_pos (by omega)] at hlsu

section
variable {s : State} {k instant x : Nat}

/-! ## The storage views -/

theorem viewStorage_of_lt (h : k < unitCount s.params) : viewStorage s k =
    .ok (s.v / 2 ^ (unitBits s.params * (unitCount s.params - 1 - k)) % 2 ^ unitBits s.params) := by
  rw [viewStorage, if_pos h, storageUnits, getD_units _ _ h]

theorem viewStorage_of_ge (h : unitCount s.params ≤ k) : viewStorage s k = .error (.noSuchView k) :=
  if_neg (Nat.not_lt.mpr h)

theorem viewResStorage_of_lt (h : k < resUnitCount s) : viewResStorage s k =
    .ok (s.res / 2 ^ (unitBits s.params * (resUnitCount s - 1 - k)) % 2 ^ unitBits s.params) := by
  rw [viewResStorage, if_pos h, getD_units _ _ h]

theorem viewResStorage_of_ge (h : resUnitCount s ≤ k) : viewResStorage s k = .error (.noSuchView k) :=
  if_neg (Nat.not_lt.mpr h)

theorem viewStorage_lt (h : viewStorage s k = .ok x) : x < 2 ^ unitBits s.params := by
  obtain hk | hk := Nat.lt_or_ge k (unitCount s.params)
  · rw [viewStorage_of_lt hk] at h
    exact Except.ok.inj h ▸ Nat.mod_lt _ (Nat.two_pow_pos _)
  · rw [viewStorage_of_ge hk] at h
    cases h

theorem viewResStorage_lt (h : viewResStorage s k = .ok x) : x < 2 ^ unitBits s.params := by
  obtain hk | hk := Nat.lt_or_ge k (resUnitCount s)
  · rw [viewResStorage_of_lt hk] at h
    exact Except.ok.inj h ▸ Nat.mod_lt _ (Nat.two_pow_pos _)
  · rw [viewResStorage_of_ge hk] at h
    cases h

/-! ## One read of a view -/

theorem readView_of_idle (h : s.handshake = .idle) (w : View) : readView s w instant = readIdleView s w := by
  rw [readView, h]

theorem readView_of_busy (h : s.handshake = .busy) (w : View) :
    readView s w instant = readBusyView s w instant := by
  rw [readView, h]

/-- A bound on the numbers that an answering read can return. -/
theorem lt_of_map_number {e : Except Refusal Nat} {f : Nat → Nat} {bound : Nat}
    (hf : ∀ y, e = .ok y → f y < bound) (h : (e.map fun y => ViewValue.number (f y)) = .ok (.number x)) :
    x < bound := by
  cases e with
  | error r => cases h
  | ok y =>
    cases h
    exact hf y rfl

theorem readView_storage_lt (h : readView s (.storage k) instant = .ok (.number x)) :
    x < 2 ^ unitBits s.params := by
  cases hh : s.handshake with
  | idle =>
    rw [readView_of_idle hh] at h
    exact lt_of_map_number (fun _ => viewStorage_lt) h
  | busy =>
    rw [readView_of_busy hh] at h
    exact lt_of_map_number (fun _ _ => Nat.mod_lt _ (Nat.two_pow_pos _)) h

theorem readView_resStorage_lt (h : readView s (.resStorage k) instant = .ok (.number x)) :
    x < 2 ^ unitBits s.params := by
  cases hh : s.handshake with
  | idle =>
    rw [readView_of_idle hh] at h
    exact lt_of_map_number (fun _ => viewResStorage_lt) h
  | busy =>
    rw [readView_of_busy hh] at h
    exact lt_of_map_number (fun _ _ => Nat.mod_lt _ (Nat.two_pow_pos _)) h

end

theorem readView_vbits_length (s : State) (instant : Nat) :
    ∃ bs, readView s .vbits instant = .ok (.bits bs) ∧ bs.length = s.params.n := by
  cases hh : s.handshake with
  | idle => exact ⟨_, readView_of_idle hh _, bitsOf_length _ _⟩
  | busy => exact ⟨_, readView_of_busy hh _, bitsOf_length _ _⟩

theorem readView_scalar_lt (s : State) (instant : Nat) :
    ∃ x, readView s .scalar instant = .ok (.number x) ∧ x < 2 ^ 64 := by
  cases hh : s.handshake with
  | idle => exact ⟨_, readView_of_idle hh _, s.scalar.isLt⟩
  | busy => exact ⟨_, readView_of_busy hh _, Nat.mod_lt _ (Nat.two_pow_pos 64)⟩

theorem readView_status_lt (s : State) (instant : Nat) :
    ∃ x, readView s .status instant = .ok (.number x) ∧ x < 2 ^ 32 := by
  cases hh : s.handshake with
  | idle => exact ⟨_, readView_of_idle hh _, (statusWord s).isLt⟩
  | busy => exact ⟨_, readView_of_busy hh _, Nat.mod_lt _ (Nat.two_pow_pos 32)⟩

/-- Settles O52, by the unit each index below the count names; the example of R42 is its two units at `UC = 2`. -/
theorem storageViewsAreUnits : Obligations.StorageViewsAreUnits := by
  intro s k instant hidle
  simp only [readView_of_idle hidle, readIdleView]
  refine ⟨fun hk => ?_, fun hk => ?_, fun hk => ?_, fun hk => ?_, fun hn hbyte hv => ?_⟩
  · rw [viewStorage_of_lt hk, Except.map]
  · rw [viewStorage_of_ge hk, Except.map]
  · rw [viewResStorage_of_lt hk, Except.map]
  · rw [viewResStorage_of_ge hk, Except.map]
  · have hbits : unitBits s.params = 8 := by rw [unitBits, hbyte]
    have hcount : unitCount s.params = 2 := by rw [unitCount, hbits, hn, unitsFor]
    rw [viewStorage_of_lt (by omega), viewStorage_of_lt (by omega), hbits, hcount, hv]
    exact ⟨rfl, rfl⟩

/-- Settles O55, view by view, between commands and while one is in progress. -/
theorem viewReadsFitTheirWidth : Obligations.ViewReadsFitTheirWidth :=
  fun s instant _ => ⟨fun _ => readView_storage_lt, fun _ => readView_resStorage_lt,
    readView_vbits_length s instant, readView_scalar_lt s instant, readView_status_lt s instant⟩

end Sys2Proof.Machine

/-! PROOF. The command word: its four fields, what the decoder accepts and refuses, and the round trip with the encoder
(spec/30_encoding.md R58, R64, R65, R66, R72). -/

namespace Sys2Proof.Machine

/-! ## The fields of the word -/

theorem fieldOpc_toNat (c : Cmd) : (fieldOpc c).toNat = c.toNat % 32 := by
  rw [fieldOpc, BitVec.extractLsb'_toNat, Nat.shiftRight_zero]

theorem fieldF_toNat (c : Cmd) : (fieldF c).toNat = c.toNat / 32 % 2 := by
  rw [fieldF, BitVec.extractLsb'_toNat, Nat.shiftRight_eq_div_pow]

theorem fieldW_toNat (c : Cmd) : (fieldW c).toNat = c.toNat / 64 % 8 := by
  rw [fieldW, BitVec.extractLsb'_toNat, Nat.shiftRight_eq_div_pow]

theorem fieldRsv_toNat (c : Cmd) : (fieldRsv c).toNat = c.toNat / 512 := by
  have hc := c.isLt
  rw [fieldRsv, BitVec.extractLsb'_toNat, Nat.shiftRight_eq_div_pow]
  omega

/-- A word is its four fields put together: it has no bits besides them (R58). -/
theorem append_fields (c : Cmd) : fieldRsv c ++ fieldW c ++ fieldF c ++ fieldOpc c = c := by
  refine BitVec.eq_of_toNat_eq ?_
  simp only [toNat_append_eq_add, fieldOpc_toNat, fieldF_toNat, fieldW_toNat, fieldRsv_toNat]
  omega

/-! ## What the decoder accepts -/

theorem ofBool_flagOf (f : BitVec 1) : BitVec.ofBool (flagOf f) = f := by
  revert f; decide

theorem plain_eq_ok {op i : Instr} {f : BitVec 1} {w : BitVec 3} (h : plain op f w = .ok i) :
    f = 0#1 ∧ w = 0#3 ∧ op = i := by
  unfold plain at h
  split at h
  · cases h
  · next hf =>
    split at h <;> cases h
    next hw => exact ⟨not_not.mp hf, not_not.mp hw, rfl⟩

theorem withFlag_eq_ok {op : Bool → Instr} {i : Instr} {f : BitVec 1} {w : BitVec 3}
    (h : withFlag op f w = .ok i) : w = 0#3 ∧ op (flagOf f) = i := by
  unfold withFlag at h
  split at h <;> cases h
  next hw => exact ⟨hw, rfl⟩

/-- Accepted fields are the fields of the command they are read as, operands included. -/
theorem decodeFields_eq_ok {opc : BitVec 5} {f : BitVec 1} {w : BitVec 3} {i : Instr}
    (h : decodeFields opc f w = .ok i) : opc = opcode i ∧ f = flagField i ∧ w = widthField i := by
  unfold decodeFields at h
  split at h
  case h_1 hopc =>
    split at h <;> cases h
    next hf => exact ⟨BitVec.eq_of_toNat_eq hopc, hf, rfl⟩
  case h_3 hopc | h_5 hopc =>
    obtain ⟨rfl, rfl⟩ := withFlag_eq_ok h
    exact ⟨BitVec.eq_of_toNat_eq hopc, (ofBool_flagOf f).symm, rfl⟩
  case h_14 => cases h
  all_goals
    next hopc =>
    obtain ⟨rfl, rfl, rfl⟩ := plain_eq_ok h
    exact ⟨BitVec.eq_of_toNat_eq hopc, rfl, rfl⟩

theorem decode_eq_ok {c : Cmd} {i : Instr} (h : decode c = .ok i) :
    fieldRsv c = 0#23 ∧ decodeFields (fieldOpc c) (fieldF c) (fieldW c) = .ok i := by
  unfold decode at h
  split at h
  · cases h
  · next hrsv => exact ⟨not_not.mp hrsv, h⟩

/-- An accepted word is the word of the command it is read as. -/
theorem encode_of_decode {c : Cmd} {i : Instr} (h : decode c = .ok i) : encode i = c := by
  obtain ⟨hrsv, hfields⟩ := decode_eq_ok h
  obtain ⟨hopc, hf, hw⟩ := decodeFields_eq_ok hfields
  rw [encode, ← hrsv, ← hopc, ← hf, ← hw, append_fields]

/-- The word of a command decodes to it. -/
@[simp] theorem decode_encode (i : Instr) : decode (encode i) = .ok i := by
  cases i with
  | load w => exact Laws.DecodeEncode.load w
  | read => exact Laws.DecodeEncode.read
  | fill f => exact Laws.DecodeEncode.fill f
  | getbit => exact Laws.DecodeEncode.getbit
  | setbit f => exact Laws.DecodeEncode.setbit f
  | inc => exact Laws.DecodeEncode.inc
  | and => exact Laws.DecodeEncode.and
  | or => exact Laws.DecodeEncode.or
  | xor => exact Laws.DecodeEncode.xor
  | not => exact Laws.DecodeEncode.not
  | shl => exact Laws.DecodeEncode.shl
  | shr => exact Laws.DecodeEncode.shr
  | cmp => exact Laws.DecodeEncode.cmp

/-- Settles O3: the decoder reads back every command's word, and what it accepts is, field by field, such a word. -/
theorem decodeIsInverseOfEncode : Obligations.DecodeIsInverseOfEncode := by
  intro c i
  constructor
  · exact encode_of_decode
  · rintro rfl
    exact decode_encode i

/-! ## What the decoder refuses -/

theorem plain_refuses_iff (op : Instr) (f : BitVec 1) (w : BitVec 3) :
    (∃ e, plain op f w = .error e) ↔ f.toNat = 1 ∨ w.toNat ≠ 0 := by
  have hflag : f ≠ 0#1 ↔ f.toNat = 1 := by bv_omega
  have hwidth : w ≠ 0#3 ↔ w.toNat ≠ 0 := by bv_omega
  rw [← hflag, ← hwidth, plain]
  by_cases hf : f ≠ 0#1
  · simp [hf]
  · by_cases hw : w ≠ 0#3 <;> simp [hf, hw]

theorem withFlag_refuses_iff (op : Bool → Instr) (f : BitVec 1) (w : BitVec 3) :
    (∃ e, withFlag op f w = .error e) ↔ w.toNat ≠ 0 := by
  have hwidth : w = 0#3 ↔ w.toNat = 0 := by bv_omega
  rw [Ne, ← hwidth, withFlag]
  by_cases hw : w = 0#3 <;> simp [hw]

/-- The refusals of R66 once `RSV = 0`, opcode by opcode of the map of R64. -/
theorem decodeFields_refuses_iff (opc : BitVec 5) (f : BitVec 1) (w : BitVec 3) :
    (∃ e, decodeFields opc f w = .error e) ↔
      opc.toNat = 0 ∨ 0x0E ≤ opc.toNat ∨ (f.toNat = 1 ∧ opc.toNat ≠ 0x03 ∧ opc.toNat ≠ 0x05) ∨
      (w.toNat ≠ 0 ∧ opc.toNat ≠ 0x01) := by
  unfold decodeFields
  split
  case h_1 hopc =>
    have hflag : f = 0#1 ↔ f.toNat ≠ 1 := by bv_omega
    by_cases hf : f.toNat = 1 <;> simp [hopc, hflag, hf]
  case h_3 hopc | h_5 hopc =>
    rw [withFlag_refuses_iff]
    omega
  case h_14 =>
    have hunmapped : opc.toNat = 0 ∨ 0x0E ≤ opc.toNat := by
      simp only [imp_false] at *
      omega
    exact iff_of_true ⟨_, rfl⟩ (hunmapped.imp_right .inl)
  all_goals
    rw [plain_refuses_iff]
    omega

theorem decode_refuses_iff (c : Cmd) : (∃ e, decode c = .error e) ↔
    fieldRsv c ≠ 0#23 ∨ ∃ e, decodeFields (fieldOpc c) (fieldF c) (fieldW c) = .error e := by
  unfold decode
  by_cases hrsv : fieldRsv c ≠ 0#23 <;> simp [hrsv]

/-- Settles O4: the refusals read off the decoder opcode by opcode, and the step that accepts a refused word. -/
theorem illegalWordsRaiseIllegalCommand : Obligations.IllegalWordsRaiseIllegalCommand := by
  refine ⟨fun c => ?_, ?_⟩
  · have hrsv : fieldRsv c ≠ 0#23 ↔ c.toNat / 512 ≠ 0 := by
      rw [← fieldRsv_toNat, Ne, ← BitVec.toNat_inj, BitVec.toNat_zero]
    rw [decode_refuses_iff, decodeFields_refuses_iff, hrsv, fieldOpc_toNat, fieldF_toNat, fieldW_toNat]
  · rintro s r rest hidle hi ⟨e, hdec⟩
    have hstep : step s = .next (raiseError (accept s r rest) .illegalCommand) := by
      rw [step_of_command hi hidle, runSampled_of_error (s := accept s r rest) hdec]
    rw [hstep, raiseError, ← hidle]
    rfl

/-! ## Written-out words and the word's formula -/

/-- Settles O1: the thirteen legal words are the words of their commands. -/
theorem decodesWordsOfTheOpcodeMap : Obligations.DecodesWordsOfTheOpcodeMap :=
  ⟨decode_encode (.load 0#3), decode_encode (.load 3#3), decode_encode (.load 5#3), decode_encode .read,
    decode_encode (.fill true), decode_encode .getbit, decode_encode (.setbit true), decode_encode (.setbit false),
    decode_encode .inc, decode_encode .and, decode_encode .not, decode_encode .shl, decode_encode .cmp,
    rfl, rfl, rfl, rfl⟩

/-- The word as the OR of its shifted fields; the reserved field adds nothing. -/
theorem encode_toNat (i : Instr) : (encode i).toNat =
    (opcode i).toNat ||| ((flagField i).toNat <<< 5) ||| ((widthField i).toNat <<< 6) := by
  simp only [encode, BitVec.toNat_append, BitVec.toNat_zero, Nat.zero_shiftLeft, Nat.zero_or,
    Nat.shiftLeft_or_distrib, ← Nat.shiftLeft_add]
  ac_rfl

/-- Settles O2. -/
theorem encodeIsFieldFormula : Obligations.EncodeIsFieldFormula :=
  ⟨encode_toNat, rfl, rfl⟩

end Sys2Proof.Machine

/-! PROOF. The port: what a step at an idle port does with the word presented, with none, and with the one command of a
pseudo-instruction (spec/30_encoding.md R56, R62, R67, R71). -/

namespace Sys2Proof.Machine

/-- Settles O5. -/
theorem stepRunsDecodedCommand : Obligations.StepRunsDecodedCommand := by
  intro s r rest i hidle hi hdec
  calc step s
    _ = runSampled (accept s r rest) := step_of_command hi hidle
    _ = exec i (accept s r rest) := runSampled_of_ok hdec

theorem decodeTableWord_eq_some {nbits w : Nat} {i : Instr} (h : decodeTableWord nbits w = some i) :
    decode (tableWord nbits w) = .ok i := by
  unfold decodeTableWord at h
  split at h <;> cases h
  assumption

/-- Settles O6: the presented table word is at the head of the list of an idle port. -/
theorem tableWordRunsNext : Obligations.TableWordRunsNext := by
  intro s nbits w i h
  exact stepRunsDecodedCommand (s.withFetchWord nbits w) _ s.inputs i rfl rfl (decodeTableWord_eq_some h)

/-- Settles O7. -/
theorem idlePortHoldsState : Obligations.IdlePortHoldsState :=
  fun _ hidle hi => step_of_no_input hi hidle

/-! ## LOAD of a pattern presented on 64 bits -/

/-- The width of a supported code (R60). -/
theorem loadWidth_of_lt {w : BitVec 3} (h : w.toNat < 4) : loadWidth w = some (8 * 2 ^ w.toNat) := by
  revert w; decide

/-- LOAD at width `N` takes the low `N` bits of whatever pattern is on `DATA` (R61). -/
theorem exec_load_withData {w : BitVec 3} {s : State} (hw : loadWidth w = some s.params.n) (d : Scalar) :
    exec (.load w) (withData s d) = .next (withData (completeOk (setV s (d.toNat % 2 ^ s.params.n))) d) := by
  obtain ⟨t, h⟩ := exec_completes (.load w) (withData s d)
  have hn : (withData s d).params.n = s.params.n := rfl
  rw [h, execLoad_effect h, effect, hn, hw]
  simp only [ne_eq, not_true_eq_false, if_false]
  rfl

/-- Sign extension leaves the low bits as they are. -/
theorem signExtend_toNat_mod {n m : Nat} (x : BitVec n) (h : n ≤ m) : (x.signExtend m).toNat % 2 ^ n = x.toNat := by
  have hlow : (x.signExtend m).setWidth n = x := by
    refine BitVec.eq_of_getLsbD_eq fun i hi => ?_
    rw [BitVec.getLsbD_setWidth, BitVec.getLsbD_signExtend]
    simp [hi, show i < m by omega]
  rw [← BitVec.toNat_setWidth, hlow]

/-- Settles O23: LOAD reads the low `N` bits, in which the two presentations agree. -/
theorem loadOfSignExtendedPattern : Obligations.LoadOfSignExtendedPattern := by
  intro w s x hcode hwidth
  have hw : loadWidth w = some s.params.n := hwidth ▸ loadWidth_of_lt hcode
  have hn : s.params.n ≤ 64 := by
    have := Nat.pow_le_pow_right Nat.two_pos (show w.toNat ≤ 3 by omega)
    omega
  have hzero : (x.setWidth 64).toNat % 2 ^ s.params.n = x.toNat := by
    rw [BitVec.toNat_setWidth_of_le hn, Nat.mod_eq_of_lt x.isLt]
  exact ⟨_, _, exec_load_withData hw (x.setWidth 64), exec_load_withData hw (x.signExtend 64), hzero,
    by rw [hzero, signExtend_toNat_mod x hn]; rfl⟩

/-! ## Pseudo-instructions -/

/-- An assembler line presented at an idle port has the effect of its command. -/
theorem step_of_asmLine {s : State} {l : AsmLine} {rest : List HostEvent} (hidle : s.handshake = .idle)
    (hv : s.v < 2 ^ s.params.n) (hi : s.inputs = .command (assemble l) :: rest) :
    step s = .next ((effect (asmInstr l) (accept s (assemble l) rest)).apply (accept s (assemble l) rest)) := by
  rw [stepRunsDecodedCommand s _ rest _ hidle hi (decode_encode (asmInstr l))]
  exact exec_eq_effect (s := accept s (assemble l) rest) hv

/-- The `DATA` of `DEC m` is the two's complement of `m`. -/
theorem ofInt_neg_toNat {m : Nat} (hone : 1 ≤ m) (hmax : m ≤ 2 ^ 63) :
    (BitVec.ofInt 64 (-(m : Int))).toNat = 2 ^ 64 - m := by
  rw [BitVec.toNat_ofInt]
  omega

theorem sint64_ofInt_neg {m : Nat} (hone : 1 ≤ m) (hmax : m ≤ 2 ^ 63) :
    sint64 (BitVec.ofInt 64 (-(m : Int))) = -(m : Int) := by
  rw [sint64, ofInt_neg_toNat hone hmax]
  split <;> omega

/-- The `DATA` of `BSET i` and `BCLR i` is the index. -/
theorem ofNat_toNat_of_lt {i : Nat} (h : i < 2 ^ 64) : (BitVec.ofNat 64 i).toNat = i :=
  (BitVec.toNat_ofNat i 64).trans (Nat.mod_eq_of_lt h)

/-- INC: without error the sum modulo `2^N`, and never an error under WRAP (spec/43_add_sub.md R88, R91). -/
theorem effect_inc_apply (s : State) :
    (((effect .inc s).apply s).err = 0#3 →
      (((effect .inc s).apply s).v : Int) = ((s.v : Int) + operandSigned s) % 2 ^ s.params.n) ∧
    (s.params.wideDelta = .wrap → ((effect .inc s).apply s).err = 0#3) := by
  rw [effect]
  split
  · next hreject =>
    obtain ⟨hreject, -⟩ := hreject
    exact ⟨fun herr => absurd herr (errorCode_ne_zero .deltaTooWide), fun hwrap => by rw [hreject] at hwrap; cases hwrap⟩
  · exact ⟨fun _ => Int.toNat_of_nonneg (Int.emod_nonneg _ (by positivity)), fun _ => rfl⟩

/-- SETBIT of a bit below `N` writes that bit and keeps every other (spec/42_bit_access.md R86). -/
theorem effect_setbit_apply {s : State} (f : Bool) {i : Nat} (hindex : operandIndex s = i) (hlt : i < s.params.n) :
    ((effect (.setbit f) s).apply s).err = 0#3 ∧
    ∀ j, ((effect (.setbit f) s).apply s).v.testBit j = if j = i then f else s.v.testBit j := by
  rw [effect, hindex, if_neg (Nat.not_le.mpr hlt)]
  exact ⟨rfl, putBit_testBit s.v i f⟩

/-- Settles O51: each line's step is its command's effect, from which its columns are read. -/
theorem pseudoInstructionsHaveTheirMeaning : Obligations.PseudoInstructionsHaveTheirMeaning := by
  intro s p rest hidle hv hi
  refine ⟨_, step_of_asmLine hidle hv hi, ?_⟩
  cases p with
  | clr => exact ⟨rfl, rfl, rfl⟩
  | ones => exact ⟨rfl, rfl, rfl⟩
  | dec m =>
    intro hone hmax
    obtain ⟨hsum, hwrap⟩ := effect_inc_apply (accept s (assemble (expand (.dec m))) rest)
    have hdelta : operandSigned (accept s (assemble (expand (.dec m))) rest) = -(m : Int) :=
      sint64_ofInt_neg hone hmax
    rw [hdelta] at hsum
    have hcmd : encode .inc = 0x006#32 := rfl
    exact ⟨hcmd, ofInt_neg_toNat hone hmax, hsum, hwrap⟩
  | bset i =>
    intro hlt hfits
    have hcmd : encode (.setbit true) = 0x025#32 := rfl
    exact ⟨hcmd, effect_setbit_apply true (ofNat_toNat_of_lt hfits) hlt⟩
  | bclr i =>
    intro hlt hfits
    have hcmd : encode (.setbit false) = 0x005#32 := rfl
    exact ⟨hcmd, effect_setbit_apply false (ofNat_toNat_of_lt hfits) hlt⟩

end Sys2Proof.Machine

/-! PROOF. LOAD, READ and the bits of `V` (spec/40_construct_convert.md R73 to R77): what each command does once its
condition is decided, and the bit expansion of the storage. -/

namespace Sys2Proof.Machine

/-! ## LOAD -/

/-- The command word of LOAD (R73) is its opcode and its width code. -/
theorem encode_load (w : BitVec 3) : encode (.load w) = BitVec.ofNat 32 (0x001 ||| (w.toNat <<< 6)) := by
  calc encode (.load w)
    _ = BitVec.ofNat 32 (encode (.load w)).toNat := by rw [BitVec.ofNat_toNat, BitVec.setWidth_eq]
    _ = BitVec.ofNat 32 (0x001 ||| (w.toNat <<< 6)) := by simp [encode_toNat, opcode, flagField, widthField]

/-- LOAD has its effect in every state: it does not read `V`. -/
theorem exec_load_eq_effect (w : BitVec 3) (s : State) :
    exec (.load w) s = .next ((effect (.load w) s).apply s) := by
  obtain ⟨t, h⟩ := exec_completes (.load w) s
  rw [h, execLoad_effect h]

section
variable {w : BitVec 3} {s : State}

theorem loadWidth_of_ge (h : 4 ≤ w.toNat) : loadWidth w = none := by
  revert w; decide

theorem exec_load_of_none (hw : loadWidth w = none) :
    exec (.load w) s = .next (raiseError s .unsupportedWidth) := by
  simp only [exec_load_eq_effect, effect, hw, Effect.apply]

theorem exec_load_of_ne {wbits : Nat} (hw : loadWidth w = some wbits) (hne : wbits ≠ s.params.n) :
    exec (.load w) s = .next (raiseError s .widthMismatch) := by
  simp only [exec_load_eq_effect, effect, hw, if_pos hne, Effect.apply]

theorem exec_load_of_eq (hw : loadWidth w = some s.params.n) :
    exec (.load w) s = .next (completeOk (setV s (operandPattern s s.params.n))) := by
  simp only [exec_load_eq_effect, effect, hw, ne_eq, not_true_eq_false, if_false, Effect.apply]

end

/-- Settles O22, by the three cases of the width code. -/
theorem loadResult : Obligations.LoadResult := by
  intro w s
  refine ⟨encode_load w, fun hcode => ?_, fun hcode hne => ?_, fun hcode hwidth => ?_⟩
  · exact exec_load_of_none (loadWidth_of_ge hcode)
  · exact exec_load_of_ne (loadWidth_of_lt hcode) hne
  · exact exec_load_of_eq (hwidth ▸ loadWidth_of_lt hcode)

/-! ## READ -/

/-- The legality of READ in the words of R75. -/
theorem readLegal_iff_mem (p : Params) : readLegal p = true ↔ capacity p ∈ [8, 16, 32, 64] := by
  simp [readLegal_iff]

theorem unitCount_capacity_of_byte {p : Params} (h : p.granularity = .byte) :
    unitCount p = (p.n + 7) / 8 ∧ capacity p = (p.n + 7) / 8 * 8 := by
  simp [capacity, unitCount, unitsFor, unitBits, h]

theorem unitCount_capacity_of_word {p : Params} (h : p.granularity = .word) :
    unitCount p = (p.n + 63) / 64 ∧ capacity p = (p.n + 63) / 64 * 64 := by
  simp [capacity, unitCount, unitsFor, unitBits, h]

section
variable {s : State}

theorem exec_read_of_legal (hv : s.v < 2 ^ s.params.n) (hlegal : readLegal s.params = true) :
    exec .read s = .next (completeOk (writeScalar s s.v)) := by
  rw [exec_eq_effect hv, effect, if_pos hlegal]
  rfl

theorem exec_read_of_illegal (hillegal : ¬ readLegal s.params = true) :
    exec .read s = .next (raiseError (writeScalar s 0) .readbackUnsupportedShape) :=
  if_neg hillegal

/-- READ reports 0 or the code of its one error, by its legality alone. -/
theorem exec_read_err (s : State) :
    ∃ t, exec .read s = .next t ∧ (t.err = 0#3 ↔ readLegal s.params = true) ∧ (t.err ≠ 0#3 → t.err = 3#3) := by
  obtain ⟨t, h⟩ := exec_completes .read s
  refine ⟨t, h, ?_⟩
  obtain ⟨hlegal, rfl⟩ | ⟨hillegal, rfl⟩ := execRead_cases h
  · simp [hlegal]
  · simp [hillegal, errorCode]

/-- A vector that READ can return fits `SCALAR`. -/
theorem v_lt_of_readLegal (hv : s.v < 2 ^ s.params.n) (hlegal : readLegal s.params = true) : s.v < 2 ^ 64 := by
  have hcap := (readLegal_iff s.params).mp hlegal
  exact Nat.lt_of_lt_of_le (lt_capacity hv) (Nat.pow_le_pow_right Nat.two_pos (by omega))

end

/-- Settles O24, by the legality of READ. -/
theorem readResult : Obligations.ReadResult := by
  refine ⟨rfl, fun s hv => ?_⟩
  rw [← readLegal_iff_mem]
  exact ⟨fun hlegal => ⟨v_lt_of_readLegal hv hlegal, exec_read_of_legal hv hlegal⟩, exec_read_of_illegal⟩

/-- The byte-granular row of the table of R76. -/
theorem readLegal_of_byte {p : Params} (hn : 1 ≤ p.n) (h : p.granularity = .byte) :
    (readLegal p = true ↔ unitCount p ∈ [1, 2, 4, 8]) ∧
    (readLegal p = true ↔ p.n ≤ 16 ∨ (25 ≤ p.n ∧ p.n ≤ 32) ∨ (57 ≤ p.n ∧ p.n ≤ 64)) := by
  obtain ⟨hcount, hcap⟩ := unitCount_capacity_of_byte h
  simp only [readLegal_iff, hcap, hcount, List.mem_cons, List.not_mem_nil, or_false]
  omega

/-- The word-granular row of the table of R76. -/
theorem readLegal_of_word {p : Params} (hn : 1 ≤ p.n) (h : p.granularity = .word) :
    (readLegal p = true ↔ unitCount p = 1) ∧ (readLegal p = true ↔ p.n ≤ 64) := by
  obtain ⟨hcount, hcap⟩ := unitCount_capacity_of_word h
  simp only [readLegal_iff, hcap, hcount]
  omega

/-- Settles O25: `ERR` tells the legality of READ, which each granularity's row of the table describes. -/
theorem readLegalWidths : Obligations.ReadLegalWidths := by
  intro s hn
  obtain ⟨t, h, herr, hcode⟩ := exec_read_err s
  refine ⟨t, h, ?_⟩
  rw [herr]
  exact ⟨readLegal_iff_mem s.params, readLegal_of_byte hn, readLegal_of_word hn, hcode⟩

/-! ## LOAD followed by READ -/

/-- Each width LOAD supports is one READ supports, whatever the granularity (R74). -/
theorem readLegal_of_loadWidth {p : Params} {k : Nat} (hk : k < 4) (hn : 8 * 2 ^ k = p.n) : readLegal p = true := by
  have hwidth : p.n = 8 ∨ p.n = 16 ∨ p.n = 32 ∨ p.n = 64 := by
    rw [← hn]
    interval_cases k <;> simp
  cases h : p.granularity with
  | byte =>
    obtain ⟨-, hrow⟩ := readLegal_of_byte (by omega) h
    exact hrow.mpr (by omega)
  | word =>
    obtain ⟨-, hrow⟩ := readLegal_of_word (by omega) h
    exact hrow.mpr (by omega)

section
variable {s : State} {data : Scalar} {b : Nat} {rest : List HostEvent}

theorem step_load {w : BitVec 3} (hidle : s.handshake = .idle)
    (hi : s.inputs = .command { cmd := encode (.load w), data := data, b := b } :: rest)
    (hw : loadWidth w = some s.params.n) :
    ∃ t, step s = .next t ∧ t.v = data.toNat % 2 ^ s.params.n ∧ t.params = s.params ∧ t.handshake = .idle ∧
      t.inputs = rest :=
  ⟨_, (stepRunsDecodedCommand s _ rest _ hidle hi (decode_encode _)).trans
      (exec_load_of_eq (s := accept s _ rest) hw),
    rfl, rfl, rfl, rfl⟩

theorem step_read (hidle : s.handshake = .idle)
    (hi : s.inputs = .command { cmd := encode .read, data := data, b := b } :: rest)
    (hv : s.v < 2 ^ s.params.n) (hlegal : readLegal s.params = true) :
    ∃ u, step s = .next u ∧ u.scalar.toNat = s.v ∧ u.err = 0#3 ∧ u.inputs = rest :=
  ⟨_, (stepRunsDecodedCommand s _ rest _ hidle hi (decode_encode _)).trans
      (exec_read_of_legal (s := accept s _ rest) hv hlegal),
    ofNat_toNat_of_lt (v_lt_of_readLegal hv hlegal), rfl, rfl⟩

end

/-- Settles O26: LOAD leaves the low `N` bits of `DATA` in `V`, and READ is legal at that width and copies them. -/
theorem loadThenReadGivesPattern : Obligations.LoadThenReadGivesPattern := by
  intro s w d d' b b' rest hidle hcode hwidth hi
  obtain ⟨t, hload, hv, hparams, hready, hnext⟩ := step_load hidle hi (hwidth ▸ loadWidth_of_lt hcode)
  have hfits : t.v < 2 ^ t.params.n := by
    rw [hv, hparams]
    exact Nat.mod_lt _ (Nat.two_pow_pos _)
  have hlegal : readLegal t.params = true := hparams ▸ readLegal_of_loadWidth hcode hwidth
  obtain ⟨u, hread, hscalar, herr, hrest⟩ := step_read hready hnext hfits hlegal
  exact ⟨t, u, hload, hread, hscalar.trans hv, herr, hrest⟩

/-! ## The bits of the storage -/

theorem bitsOf_add (v m n : Nat) : bitsOf v (m + n) = bitsOf (v / 2 ^ n) m ++ bitsOf v n := by
  induction m with
  | zero => simp [bitsOf]
  | succ m ih => rw [Nat.add_right_comm, bitsOf, ih, bitsOf, Nat.testBit_div_two_pow, List.cons_append]

theorem bitsOf_mod (v w : Nat) : bitsOf (v % 2 ^ w) w = bitsOf v w := by
  refine List.ext_getElem? fun k => ?_
  rw [bitsOf_getElem?, bitsOf_getElem?]
  split
  · next hk => rw [Nat.testBit_mod_two_pow, decide_eq_true (by omega), Bool.true_and]
  · rfl

/-- The units of an image, each expanded into its bits, are the bits of the number (R77). -/
theorem flatMap_units_bitsOf (ub c v : Nat) : ((units ub c v).flatMap fun u => bitsOf u ub) = bitsOf v (ub * c) := by
  induction c with
  | zero => rfl
  | succ c ih => rw [units, List.flatMap_cons, ih, bitsOf_mod, ← bitsOf_add, Nat.mul_succ, Nat.add_comm]

/-- The last `n` of the bits below position `w` are the bits below position `n`. -/
theorem drop_bitsOf {n w : Nat} (v : Nat) (h : n ≤ w) : (bitsOf v w).drop (w - n) = bitsOf v n := by
  conv_lhs => rw [← Nat.sub_add_cancel h, bitsOf_add, Nat.add_sub_cancel]
  exact List.drop_left' (bitsOf_length _ _)

/-- Settles O53: the expanded storage is the `CAP` bits of `V`, of which `VBITS` is the last `N`. -/
theorem vbitsIsStorageSlice : Obligations.VbitsIsStorageSlice := by
  intro s instant hidle
  refine ⟨viewVbits s, readView_of_idle hidle _, bitsOf_length _ _, fun k hk => ?_, ?_⟩
  · rw [viewVbits, bitsOf_getElem?, if_pos hk]
  · rw [storageUnits, flatMap_units_bitsOf, Nat.mul_comm, ← capacity, drop_bitsOf s.v (n_le_capacity s.params),
      viewVbits]

end Sys2Proof.Machine

/-! PROOF. The truncation mask on the unit image and FILL (spec/41_truncate_fill.md R79, R80, R84). -/

namespace Sys2Proof.Machine

/-! ## The truncation mask -/

/-- The mask ANDs the most-significant unit and keeps every other. -/
theorem maskTop_getD (mask : Nat) (us : List Nat) (k : Nat) :
    (maskTop mask us).getD k 0 = if k = 0 then us.getD 0 0 &&& mask else us.getD k 0 := by
  cases us with
  | nil => simp [maskTop]
  | cons u us =>
    cases k with
    | zero => rfl
    | succ k => rfl

theorem cut_of_full {p : Params} (h : topBits p = 0) (v : Nat) : cut p v = v := if_pos h

/-- With a partial top unit, `cut` masks the unit image: the masked image is the storage of the value `cut` gives. -/
theorem units_cut_of_partial {p : Params} (h : topBits p ≠ 0) (v : Nat) :
    units (unitBits p) (unitCount p) (cut p v) =
      maskTop (2 ^ topBits p - 1) (units (unitBits p) (unitCount p) v) := by
  have hbounded := maskTop_bounded (2 ^ topBits p - 1) (units_bounded (unitBits p) (unitCount p) v)
  have himage := units_value (unitBits_pos p) _ hbounded
  rw [maskTop_length, units_length] at himage
  have hcut : cut p v = value (unitBits p) (maskTop (2 ^ topBits p - 1) (units (unitBits p) (unitCount p) v)) :=
    if_neg h
  rw [hcut, himage]

/-- Settles O27: the closed form of `cut`, and its unit image, by whether the top unit is full. -/
theorem cutMasksOnlyTopUnit : Obligations.CutMasksOnlyTopUnit := by
  intro p v hv
  refine ⟨cut_eq_mod hv, fun hfull => cut_of_full hfull v, fun hpartial k _ => ?_⟩
  rw [units_cut_of_partial hpartial, maskTop_getD]

/-! ## FILL -/

theorem encode_fill (f : Bool) : encode (.fill f) = if f then 0x023#32 else 0x003#32 := by
  cases f with
  | false => rfl
  | true => rfl

/-- FILL has its effect in every state: it does not read `V`. -/
theorem exec_fill (f : Bool) (s : State) :
    exec (.fill f) s = .next (completeOk (setV s (if f then 2 ^ s.params.n - 1 else 0))) := by
  obtain ⟨t, h⟩ := exec_completes (.fill f) s
  rw [h, execFill_effect h, effect, Effect.apply]

/-- Settles O28: FILL's word, and what it leaves in `V`, the all-ones or the all-zero number truncated. -/
theorem fillResult : Obligations.FillResult :=
  fun f s => ⟨encode_fill f, exec_fill f s⟩

end Sys2Proof.Machine

/-! PROOF. GETBIT and SETBIT: the next state of each on both sides of index `N`, and a sequence of the two on one index
(spec/42_bit_access.md R85 to R87). -/

namespace Sys2Proof.Machine

/-! ## GETBIT -/

/-- The bit of a number as the one-bit word `BITOUT` holds. -/
theorem ofBool_testBit (v i : Nat) : BitVec.ofBool (v.testBit i) = BitVec.ofNat 1 (v / 2 ^ i % 2) := by
  rw [← Nat.toNat_testBit]
  cases v.testBit i with
  | false => rfl
  | true => rfl

section
variable {s : State}

theorem exec_getbit_of_ge (h : s.params.n ≤ operandIndex s) :
    exec .getbit s = .next (completeOk (writeBitout s false)) :=
  if_pos h

theorem exec_getbit_of_lt (h : operandIndex s < s.params.n) :
    exec .getbit s = .next (completeOk (writeBitout s (s.v.testBit (operandIndex s)))) :=
  if_neg (Nat.not_le.mpr h)

end

/-- Settles O29, by the side of `N` the index is on. -/
theorem getbitResult : Obligations.GetbitResult := by
  refine ⟨rfl, fun s => ⟨exec_getbit_of_ge, fun hlt => ?_⟩⟩
  rw [exec_getbit_of_lt hlt, writeBitout, ofBool_testBit]
  rfl

/-! ## SETBIT -/

theorem encode_setbit (f : Bool) : encode (.setbit f) = if f then 0x025#32 else 0x005#32 := by
  cases f with
  | false => rfl
  | true => rfl

section
variable {s : State}

theorem exec_setbit_of_ge (f : Bool) (h : s.params.n ≤ operandIndex s) :
    exec (.setbit f) s = .next (raiseError s .indexOutOfRange) :=
  if_pos h

/-- Below `N` the truncation mask of SETBIT is the identity (R86). -/
theorem exec_setbit_of_lt (f : Bool) (h : operandIndex s < s.params.n) (hv : s.v < 2 ^ s.params.n) :
    exec (.setbit f) s = .next (completeOk (setV s (putBit s.v (operandIndex s) f))) := by
  rw [exec_eq_effect hv, effect, if_neg (Nat.not_le.mpr h), Effect.apply]

end

/-- Settles O30: the number written below `N` is `putBit`, whose bits `putBit_testBit` gives. -/
theorem setbitResult : Obligations.SetbitResult :=
  fun f s => ⟨encode_setbit f, exec_setbit_of_ge f, fun hlt hv =>
    ⟨putBit s.v (operandIndex s) f, exec_setbit_of_lt f hlt hv, putBit_testBit s.v (operandIndex s) f⟩⟩

/-! ## SETBIT followed by GETBIT -/

section
variable {s : State} {r : Request} {rest : List HostEvent}

theorem step_getbit (hcmd : r.cmd = encode .getbit) (hidle : s.handshake = .idle)
    (hi : s.inputs = .command r :: rest) (hlt : r.data.toNat < s.params.n) :
    step s = .next (completeOk (writeBitout (accept s r rest) (s.v.testBit r.data.toNat))) := by
  rw [stepRunsDecodedCommand s r rest .getbit hidle hi (hcmd ▸ decode_encode _)]
  exact exec_getbit_of_lt (s := accept s r rest) hlt

theorem step_setbit {f : Bool} (hcmd : r.cmd = encode (.setbit f)) (hidle : s.handshake = .idle)
    (hi : s.inputs = .command r :: rest) (hlt : r.data.toNat < s.params.n) (hv : s.v < 2 ^ s.params.n) :
    step s = .next (completeOk (setV (accept s r rest) (putBit s.v r.data.toNat f))) := by
  rw [stepRunsDecodedCommand s r rest (.setbit f) hidle hi (hcmd ▸ decode_encode _)]
  exact exec_setbit_of_lt (s := accept s r rest) f hlt hv

/-- SETBIT and GETBIT of one index below `N`: the bit read is the one written, and an idle port with a `V` within its
width is left for the commands that follow. -/
theorem setbit_then_getbit {f : Bool} {d : Scalar} {b : Nat} (hidle : s.handshake = .idle)
    (hv : s.v < 2 ^ s.params.n) (hlt : d.toNat < s.params.n)
    (hi : s.inputs = .command { cmd := encode (.setbit f), data := d, b := b } ::
      .command { cmd := encode .getbit, data := d, b := b } :: rest) :
    ∃ t u, step s = .next t ∧ step t = .next u ∧ u.bitout = BitVec.ofBool f ∧ u.v = putBit s.v d.toNat f ∧
      u.params = s.params ∧ u.handshake = .idle ∧ u.inputs = rest := by
  refine ⟨_, _, step_setbit rfl hidle hi hlt hv, step_getbit rfl rfl rfl hlt, ?_, rfl, rfl, rfl, rfl⟩
  have hbit : (putBit s.v d.toNat f).testBit d.toNat = f := by rw [putBit_testBit, if_pos rfl]
  exact congrArg BitVec.ofBool hbit

end

theorem putBit_testBit_of_ne {i j : Nat} (v : Nat) (f : Bool) (h : j ≠ i) :
    (putBit v i f).testBit j = v.testBit j := by
  rw [putBit_testBit, if_neg h]

/-- Settles O31: the pair SETBIT, GETBIT twice over, the second time from where the first one ends. -/
theorem setThenGetBit : Obligations.SetThenGetBit := by
  intro s d b rest hidle hv hlt hi
  obtain ⟨t₁, t₂, hset, hget, hone, hv₂, hparams, hidle₂, hi₂⟩ := setbit_then_getbit hidle hv hlt hi
  have hfits : t₂.v < 2 ^ t₂.params.n := by
    rw [hv₂, hparams]
    exact putBit_lt true hv hlt
  obtain ⟨t₃, t₄, hclear, hget', hzero, hv₄, -⟩ := setbit_then_getbit hidle₂ hfits (hparams ▸ hlt) hi₂
  refine ⟨t₁, t₂, t₃, t₄, hset, hget, hclear, hget', hone, hzero, fun j hj => ?_⟩
  have hset_keeps : t₂.v.testBit j = s.v.testBit j := by rw [hv₂, putBit_testBit_of_ne s.v true hj]
  have hclear_keeps : t₄.v.testBit j = t₂.v.testBit j := by rw [hv₄, putBit_testBit_of_ne t₂.v false hj]
  exact ⟨hset_keeps, hclear_keeps.trans hset_keeps⟩

end Sys2Proof.Machine

/-! PROOF. INC and the circuits under it (spec/43_add_sub.md R88 to R95): the next state by whether the delta is turned
away, the blocks in which that can happen, and the corners of the sum modulo `2^N`. -/

namespace Sys2Proof.Machine

/-! ## The next state of INC -/

theorem operandSigned_eq_toInt (s : State) : operandSigned s = s.sampled.data.toInt := sint64_eq_toInt s.sampled.data

section
variable {s : State}

theorem exec_inc_of_tooWide (hv : s.v < 2 ^ s.params.n)
    (h : s.params.wideDelta = .reject ∧ 2 ^ capacity s.params ≤ s.sampled.data.toInt.natAbs) :
    exec .inc s = .next (raiseError s .deltaTooWide) := by
  rw [← operandSigned_eq_toInt] at h
  rw [exec_eq_effect hv, effect, if_pos h, Effect.apply]

theorem exec_inc_of_accepted (hv : s.v < 2 ^ s.params.n)
    (h : ¬ (s.params.wideDelta = .reject ∧ 2 ^ capacity s.params ≤ s.sampled.data.toInt.natAbs)) :
    exec .inc s = .next (completeOk (setV s (((s.v : Int) + s.sampled.data.toInt) % 2 ^ s.params.n).toNat)) := by
  rw [← operandSigned_eq_toInt] at h ⊢
  rw [exec_eq_effect hv, effect, if_neg h, Effect.apply]

/-- A delta that fits the storage is accepted under either policy (R91). -/
theorem exec_inc_of_fits (hv : s.v < 2 ^ s.params.n) (h : s.sampled.data.toInt.natAbs < 2 ^ capacity s.params) :
    exec .inc s = .next (completeOk (setV s (((s.v : Int) + s.sampled.data.toInt) % 2 ^ s.params.n).toNat)) :=
  exec_inc_of_accepted hv fun ⟨_, hwide⟩ => Nat.not_le.mpr h hwide

end

/-- Settles O32, by whether the policy turns the delta away. -/
theorem incResult : Obligations.IncResult :=
  ⟨rfl, fun _ hv => ⟨exec_inc_of_tooWide hv, exec_inc_of_accepted hv⟩⟩

/-- Settles O33: the two circuits in values, and the sum INC leaves when it reports no error. -/
theorem rippleCircuitsAreModular : Obligations.RippleCircuitsAreModular := by
  refine ⟨fun ub a b hlen ha hb => ⟨value_addUnits hlen, value_subUnits hlen ha hb⟩, fun s hv => ?_⟩
  obtain ⟨hsum, -⟩ := effect_inc_apply s
  rw [operandSigned_eq_toInt] at hsum
  exact ⟨_, exec_eq_effect hv, hsum⟩

/-! ## Which deltas are too wide -/

/-- No 64-bit delta has a magnitude of more than 64 bits: a block that can turn one away holds at most 63 (R91). -/
theorem capacity_lt_64_of_tooWide {p : Params} {d : Scalar} (h : 2 ^ capacity p ≤ d.toInt.natAbs) :
    capacity p < 64 := by
  obtain ⟨hlow, hhigh⟩ := sint64_bounds d
  rw [sint64_eq_toInt] at hlow hhigh
  have hpow : 2 ^ capacity p < 2 ^ 64 := by omega
  exact (Nat.pow_lt_pow_iff_right Nat.one_lt_two).mp hpow

/-- Settles O34: a word-granular block holds at least 64 bits, and a byte-granular one whole bytes. -/
theorem tooWideOnlyBelow64Bits : Obligations.TooWideOnlyBelow64Bits := by
  intro p d hn hwide
  have hcap := capacity_lt_64_of_tooWide hwide
  cases h : p.granularity with
  | byte =>
    obtain ⟨hcount, hbits⟩ := unitCount_capacity_of_byte h
    refine ⟨rfl, ?_, ?_⟩ <;> omega
  | word =>
    obtain ⟨-, hbits⟩ := unitCount_capacity_of_word h
    omega

/-! ## Wrapping -/

/-- A delta of magnitude 1 fits every storage. -/
theorem one_lt_two_pow_capacity {p : Params} (hn : 1 ≤ p.n) : 1 < 2 ^ capacity p :=
  Nat.one_lt_two_pow (Nat.one_le_iff_ne_zero.mp (hn.trans (n_le_capacity p)))

/-- The all-ones number of `n` bits as an integer. -/
theorem cast_two_pow_sub_one (n : Nat) : ((2 ^ n - 1 : Nat) : Int) = 2 ^ n - 1 := by
  rw [Nat.cast_pred (Nat.two_pow_pos n), Nat.cast_pow, Nat.cast_ofNat]

theorem all_ones_add_one_emod (n : Nat) : (((2 ^ n - 1 : Nat) : Int) + 1) % 2 ^ n = 0 := by
  rw [cast_two_pow_sub_one, sub_add_cancel, Int.emod_self]

theorem zero_sub_one_emod (n : Nat) : (((0 : Nat) : Int) + -1) % 2 ^ n = (2 ^ n - 1 : Nat) := by
  calc (((0 : Nat) : Int) + -1) % 2 ^ n
    _ = (-1 + 2 ^ n) % 2 ^ n := by rw [Int.add_emod_right, Nat.cast_zero, zero_add]
    _ = ((2 ^ n - 1 : Nat) : Int) % 2 ^ n := by rw [cast_two_pow_sub_one, neg_add_eq_sub]
    _ = (2 ^ n - 1 : Nat) :=
      Int.emod_eq_of_lt (Int.natCast_nonneg _) (by rw [cast_two_pow_sub_one]; exact sub_one_lt _)

/-- Settles O37: the sum modulo `2^N` at the two ends, and its parity at `N = 1`. -/
theorem incWrapsAtBothEnds : Obligations.IncWrapsAtBothEnds := by
  intro s hn
  have hfits := one_lt_two_pow_capacity hn
  refine ⟨fun hv hd => ?_, fun hv hd => ?_, fun hone hv hwrap => ?_⟩
  · have hdelta : s.sampled.data.toInt = 1 := by rw [hd]; rfl
    have hrange : s.v < 2 ^ s.params.n := hv ▸ Nat.sub_one_lt (Nat.two_pow_pos _).ne'
    refine ⟨_, exec_inc_of_fits hrange (hdelta ▸ hfits), ?_, rfl⟩
    rw [completeOk_v, setV_v, hdelta, hv, all_ones_add_one_emod, Int.toNat_zero]
  · have hdelta : s.sampled.data.toInt = -1 := by rw [hd]; rfl
    have hrange : s.v < 2 ^ s.params.n := hv ▸ Nat.two_pow_pos _
    refine ⟨_, exec_inc_of_fits hrange (hdelta ▸ hfits), ?_, rfl⟩
    rw [completeOk_v, setV_v, hdelta, hv, zero_sub_one_emod, Int.toNat_natCast]
  · have hrange : s.v < 2 ^ s.params.n := by rw [hone]; exact hv
    have haccepted : ¬ (s.params.wideDelta = .reject ∧ 2 ^ capacity s.params ≤ s.sampled.data.toInt.natAbs) := by
      simp [hwrap]
    refine ⟨_, exec_inc_of_accepted hrange haccepted, ?_⟩
    rw [completeOk_v, setV_v, hone, pow_one]
    omega

/-! ## The rules' examples -/

/-- Settles O35: the three units of the sum, least-significant first, and INC of a delta within the 24 bits. -/
theorem incExactCarryCorner : Obligations.IncExactCarryCorner := by
  refine ⟨rfl, rfl, rfl, fun s hn hbyte hv hd => ?_⟩
  obtain ⟨hcount, hcap⟩ := unitCount_capacity_of_byte hbyte
  rw [hn] at hcount hcap
  have hdelta : s.sampled.data.toInt = 0xFFFF := by rw [hd]; rfl
  have hrange : s.v < 2 ^ s.params.n := by rw [hv, hn]; decide
  have hfits : s.sampled.data.toInt.natAbs < 2 ^ capacity s.params := by rw [hdelta, hcap]; decide
  have hsum : (((s.v : Int) + s.sampled.data.toInt) % 2 ^ s.params.n).toNat = 0x01FF00 := by
    rw [hv, hdelta, hn]; rfl
  have hub : unitBits s.params = 8 := by rw [unitBits, hbyte]
  refine ⟨_, exec_inc_of_fits hrange hfits, hsum, ?_⟩
  rw [storageUnits, completeOk_params, setV_params, completeOk_v, setV_v, hsum, hcount, hub]
  rfl

/-- Settles O36: `d = 511` needs more than the 8 bits of one byte and fits the 64 of one word. -/
theorem rejectThresholdDependsOnGranularity : Obligations.RejectThresholdDependsOnGranularity := by
  intro s hn hreject hv hd
  have hdelta : s.sampled.data.toInt = 511 := by rw [hd]; rfl
  have hrange : s.v < 2 ^ s.params.n := by rw [hn]; exact hv
  refine ⟨fun hbyte => ?_, fun hword => ?_⟩
  · obtain ⟨-, hcap⟩ := unitCount_capacity_of_byte hbyte
    have hwide : 2 ^ capacity s.params ≤ s.sampled.data.toInt.natAbs := by rw [hdelta, hcap, hn]; decide
    exact ⟨_, exec_inc_of_tooWide hrange ⟨hreject, hwide⟩, rfl, rfl⟩
  · obtain ⟨-, hcap⟩ := unitCount_capacity_of_word hword
    have hfits : s.sampled.data.toInt.natAbs < 2 ^ capacity s.params := by rw [hdelta, hcap, hn]; decide
    refine ⟨_, exec_inc_of_fits hrange hfits, rfl, ?_⟩
    rw [completeOk_v, setV_v, hdelta, hn]
    omega

end Sys2Proof.Machine

/-! PROOF. AND, OR, XOR and NOT (spec/44_logic.md R96 to R100): the next state of each as a write of `RES` and `RES_W`
together, and the laws of the four operations on operands of any widths. -/

namespace Sys2Proof.Machine

/-! ## The next states -/

section
variable {s : State}

/-- A command whose effect is a result changes `RES`, `RES_W`, `ERR` and the port. -/
theorem exec_of_result {i : Instr} {r : Nat × Nat} (hv : s.v < 2 ^ s.params.n) (h : effect i s = .result r) :
    exec i s = .next (completeOk (writeRes s r)) := by
  rw [exec_eq_effect hv, h, Effect.apply]

theorem exec_and (hv : s.v < 2 ^ s.params.n) :
    exec .and s = .next (completeOk (writeRes s (s.v &&& operandB s, min s.params.n s.params.nb))) :=
  exec_of_result hv rfl

theorem exec_or (hv : s.v < 2 ^ s.params.n) :
    exec .or s = .next (completeOk (writeRes s (s.v ||| operandB s, max s.params.n s.params.nb))) :=
  exec_of_result hv rfl

theorem exec_xor (hv : s.v < 2 ^ s.params.n) :
    exec .xor s = .next (completeOk (writeRes s (s.v ^^^ operandB s, max s.params.n s.params.nb))) :=
  exec_of_result hv rfl

theorem exec_not (hv : s.v < 2 ^ s.params.n) :
    exec .not s = .next (completeOk (writeRes s (2 ^ s.params.n - 1 - s.v, s.params.n))) :=
  exec_of_result hv rfl

end

/-- Settles O38: the unit walk over the shorter operand is the AND of the values (`vecAnd_eq`). -/
theorem andResult : Obligations.AndResult := ⟨rfl, fun _ hv => exec_and hv⟩

/-- Settles O39: the unit walk over the longer operand is the OR of the values (`vecOr_eq`). -/
theorem orResult : Obligations.OrResult := ⟨rfl, fun _ hv => exec_or hv⟩

/-- Settles O40: the unit walk over the longer operand is the XOR of the values (`vecXor_eq`). -/
theorem xorResult : Obligations.XorResult := ⟨rfl, fun _ hv => exec_xor hv⟩

/-- Settles O41: the inverted units, truncated, are the complement within the width (`vecNot_eq`). -/
theorem notResult : Obligations.NotResult := ⟨rfl, fun _ hv => exec_not hv⟩

/-! ## The laws -/

section
variable {ub x wx y wy : Nat}

theorem vecAnd_comm (hub : 0 < ub) (hx : x < 2 ^ wx) (hy : y < 2 ^ wy) :
    vecAnd ub x wx y wy = vecAnd ub y wy x wx := by
  rw [vecAnd_eq hub hx hy, vecAnd_eq hub hy hx, Nat.and_comm, Nat.min_comm]

theorem vecOr_comm (hub : 0 < ub) (hx : x < 2 ^ wx) (hy : y < 2 ^ wy) :
    vecOr ub x wx y wy = vecOr ub y wy x wx := by
  rw [vecOr_eq hub hx hy, vecOr_eq hub hy hx, Nat.or_comm, Nat.max_comm]

theorem vecXor_comm (hub : 0 < ub) (hx : x < 2 ^ wx) (hy : y < 2 ^ wy) :
    vecXor ub x wx y wy = vecXor ub y wy x wx := by
  rw [vecXor_eq hub hx hy, vecXor_eq hub hy hx, Nat.xor_comm, Nat.max_comm]

/-- The complement is within the width too, so complementing it gives the operand back. -/
theorem vecNot_vecNot (hub : 0 < ub) (hx : x < 2 ^ wx) : vecNot ub (vecNot ub x wx).1 wx = (x, wx) := by
  have hcomplement : 2 ^ wx - 1 - x < 2 ^ wx := by omega
  rw [vecNot_eq hub hx, vecNot_eq hub hcomplement, Nat.sub_sub_self (Nat.le_sub_one_of_lt hx)]

end

/-- Settles O42: each operation's value and width together are a symmetric, or an involutive, function of its operands. -/
theorem logicLaws : Obligations.LogicLaws := by
  intro p x wx y wy hx hy
  have hub := unitBits_pos p
  exact ⟨vecAnd_comm hub hx hy, vecOr_comm hub hx hy, vecXor_comm hub hx hy, vecNot_vecNot hub hx⟩

end Sys2Proof.Machine

/-! PROOF. SHL and SHR (spec/45_shift.md R102 to R106): the next state of each as the shift of `V` by a signed count,
the exchange of the two under the opposite count, and the sequence SHR, SHL presented on the port. -/

namespace Sys2Proof.Machine

/-- Settles O43, by the two directions of the barrel. -/
theorem barrelClosedForm : Obligations.BarrelClosedForm :=
  fun cap v k hv => ⟨barrel_left cap v k, barrel_right hv k⟩

/-! ## The shifted number -/

section
variable {n v : Nat}

/-- The shift by the opposite count, by the sign of the count itself (R104); at 0 the two directions agree, since the
number is within its width. -/
theorem shifted_neg (hv : v < 2 ^ n) (count : Int) :
    shifted n v (-count) = if 0 ≤ count then v / 2 ^ count.natAbs else v * 2 ^ count.natAbs % 2 ^ n := by
  rw [shifted, Int.natAbs_neg]
  rcases lt_trichotomy count 0 with hneg | rfl | hpos
  · rw [if_pos (by omega), if_neg (by omega)]
  · simp [Nat.mod_eq_of_lt hv]
  · rw [if_neg (by omega), if_pos (by omega)]

theorem shifted_of_nonneg {count : Int} (h : 0 ≤ count) : shifted n v count = v * 2 ^ count.toNat % 2 ^ n := by
  rw [shifted, if_pos h, show count.natAbs = count.toNat by omega]

theorem shifted_neg_of_nonneg (hv : v < 2 ^ n) {count : Int} (h : 0 ≤ count) :
    shifted n v (-count) = v / 2 ^ count.toNat := by
  rw [shifted_neg hv, if_pos h, show count.natAbs = count.toNat by omega]

/-- To the right and back to the left: the product is at most the number, so nothing of it is truncated (R106). -/
theorem shifted_shifted_neg (hv : v < 2 ^ n) {count : Int} (h : 0 ≤ count) :
    shifted n (shifted n v (-count)) count = v / 2 ^ count.toNat * 2 ^ count.toNat := by
  have hle : v / 2 ^ count.toNat * 2 ^ count.toNat ≤ v := Nat.div_mul_le_self v _
  rw [shifted_of_nonneg h, shifted_neg_of_nonneg hv h, Nat.mod_eq_of_lt (Nat.lt_of_le_of_lt hle hv)]

end

/-- Dividing by `2^k` and multiplying back clears the bits below `k` and keeps the others (R106). -/
theorem div_mul_two_pow_testBit (v k j : Nat) :
    (v / 2 ^ k * 2 ^ k).testBit j = (decide (k ≤ j) && v.testBit j) := by
  rw [Nat.testBit_mul_two_pow, Nat.testBit_div_two_pow]
  by_cases hkj : k ≤ j
  · rw [Nat.sub_add_cancel hkj]
  · simp [hkj]

/-! ## The next states -/

section
variable {s : State}

theorem exec_shl (hv : s.v < 2 ^ s.params.n) :
    exec .shl s = .next (completeOk (setV s (shifted s.params.n s.v s.sampled.data.toInt))) := by
  rw [exec_eq_effect hv, effect, Effect.apply, operandSigned_eq_toInt]

theorem exec_shr (hv : s.v < 2 ^ s.params.n) :
    exec .shr s = .next (completeOk (setV s (shifted s.params.n s.v (-s.sampled.data.toInt)))) := by
  rw [exec_eq_effect hv, effect, Effect.apply, operandSigned_eq_toInt]

end

/-- Settles O44: `shifted` is the result SHL states. -/
theorem shlResult : Obligations.ShlResult := ⟨rfl, fun _ hv => exec_shl hv⟩

/-- Settles O45: SHR is the shift by the opposite count. -/
theorem shrResult : Obligations.ShrResult := by
  refine ⟨rfl, fun s hv => ?_⟩
  rw [exec_shr hv, shifted_neg hv]
  rfl

/-- Settles O46: SHL shifts by the count and SHR by its opposite, whichever of the two counts is presented. -/
theorem shiftLaws : Obligations.ShiftLaws := by
  intro s d d' hv hopposite
  refine ⟨_, _, _, _, exec_shl (s := withData s d) hv, exec_shr (s := withData s d) hv,
    exec_shl (s := withData s d') hv, exec_shr (s := withData s d') hv, ?_, ?_, fun hd => ⟨?_, ?_⟩⟩
  · exact congrArg (shifted s.params.n s.v) hopposite
  · exact congrArg (shifted s.params.n s.v) (neg_eq_iff_eq_neg.mpr hopposite)
  · exact shifted_of_nonneg hd
  · exact shifted_neg_of_nonneg hv hd

/-! ## SHR followed by SHL -/

section
variable {s : State} {r : Request} {rest : List HostEvent}

theorem step_shl (hcmd : r.cmd = encode .shl) (hidle : s.handshake = .idle) (hi : s.inputs = .command r :: rest)
    (hv : s.v < 2 ^ s.params.n) :
    step s = .next (completeOk (setV (accept s r rest) (shifted s.params.n s.v r.data.toInt))) := by
  rw [stepRunsDecodedCommand s r rest .shl hidle hi (hcmd ▸ decode_encode _)]
  exact exec_shl (s := accept s r rest) hv

theorem step_shr (hcmd : r.cmd = encode .shr) (hidle : s.handshake = .idle) (hi : s.inputs = .command r :: rest)
    (hv : s.v < 2 ^ s.params.n) :
    step s = .next (completeOk (setV (accept s r rest) (shifted s.params.n s.v (-r.data.toInt)))) := by
  rw [stepRunsDecodedCommand s r rest .shr hidle hi (hcmd ▸ decode_encode _)]
  exact exec_shr (s := accept s r rest) hv

end

/-- Settles O47: SHR leaves an idle port and a `V` within its width, from which SHL shifts back. -/
theorem shrThenShlClearsLowBits : Obligations.ShrThenShlClearsLowBits := by
  intro s d b rest hidle hv hd hi
  have hback : shifted s.params.n (shifted s.params.n s.v (-d.toInt)) d.toInt =
      s.v / 2 ^ d.toInt.toNat * 2 ^ d.toInt.toNat := shifted_shifted_neg hv hd
  refine ⟨_, _, step_shr rfl hidle hi hv, step_shl rfl rfl rfl (shifted_lt hv _), hback, fun j => ?_, fun hn => ?_⟩
  · exact (congrArg (Nat.testBit · j) hback).trans (div_mul_two_pow_testBit s.v _ j)
  · have hzero : s.v / 2 ^ d.toInt.toNat = 0 :=
      Nat.div_eq_of_lt (Nat.lt_of_lt_of_le hv (Nat.pow_le_pow_right Nat.two_pos hn))
    rw [hzero, Nat.zero_mul] at hback
    exact hback

end Sys2Proof.Machine

/-! PROOF. CMP (spec/46_compare.md R107 to R110): the unit scan as the order of the natural numbers, each code of
`CMPOUT` as one of the three orders, and the laws of the comparison function. -/

namespace Sys2Proof.Machine

/-! ## The order of two numbers -/

/-- The order of two natural numbers as a sign, negative when the first is the smaller (R108, R109). -/
def orderSign (x y : Nat) : Int := if x < y then -1 else if x = y then 0 else 1

section
variable {x y : Nat}

theorem orderSign_of_lt (h : x < y) : orderSign x y = -1 := if_pos h

theorem orderSign_self (x : Nat) : orderSign x x = 0 := by
  rw [orderSign, if_neg (Nat.lt_irrefl x), if_pos rfl]

theorem orderSign_of_gt (h : y < x) : orderSign x y = 1 := by
  rw [orderSign, if_neg (Nat.lt_asymm h), if_neg (Nat.ne_of_gt h)]

theorem orderSign_swap (x y : Nat) : orderSign x y = -orderSign y x := by
  rcases Nat.lt_trichotomy x y with hlt | rfl | hgt
  · rw [orderSign_of_lt hlt, orderSign_of_gt hlt]
  · rw [orderSign_self, neg_zero]
  · rw [orderSign_of_gt hgt, orderSign_of_lt hgt, neg_neg]

/-- Each code of `CMPOUT` stands for one order: the three orders exclude each other, and their codes differ. -/
theorem compareCode_orderSign (x y : Nat) :
    (compareCode (orderSign x y) = 0b11#2 ↔ x < y) ∧
    (compareCode (orderSign x y) = 0b00#2 ↔ x = y) ∧
    (compareCode (orderSign x y) = 0b01#2 ↔ y < x) := by
  have hneg : compareCode (-1) = 0b11#2 := rfl
  have hzero : compareCode 0 = 0b00#2 := rfl
  have hpos : compareCode 1 = 0b01#2 := rfl
  rcases Nat.lt_trichotomy x y with hlt | rfl | hgt
  · simp [orderSign_of_lt hlt, hneg, hlt, hlt.ne, hlt.le]
  · simp [orderSign_self, hzero]
  · simp [orderSign_of_gt hgt, hpos, hgt, hgt.ne', hgt.le]

end

/-! ## CMP -/

/-- CMP writes the order of `V` and `B` to `CMPOUT`, and nothing else besides `ERR` and the port. -/
theorem exec_cmp {s : State} (hv : s.v < 2 ^ s.params.n) :
    exec .cmp s = .next (completeOk (writeCmpout s (orderSign s.v (operandB s)))) := by
  rw [exec_eq_effect hv, effect, Effect.apply, orderSign]

/-- Settles O48: `CMPOUT` gets the code of the order of `V` and `B`. -/
theorem cmpResult : Obligations.CmpResult :=
  ⟨rfl, fun s hv => ⟨_, exec_cmp hv, compareCode_orderSign s.v (operandB s)⟩⟩

/-! ## The laws -/

section
variable {ub x wx y wy : Nat}

theorem vecCompare_eq_orderSign (hub : 0 < ub) (hx : x < 2 ^ wx) (hy : y < 2 ^ wy) :
    vecCompare ub x wx y wy = orderSign x y :=
  vecCompare_eq hub hx hy

theorem vecCompare_self (hub : 0 < ub) (hx : x < 2 ^ wx) : vecCompare ub x wx x wx = 0 := by
  rw [vecCompare_eq_orderSign hub hx hx, orderSign_self]

theorem vecCompare_swap (hub : 0 < ub) (hx : x < 2 ^ wx) (hy : y < 2 ^ wy) :
    vecCompare ub x wx y wy = -vecCompare ub y wy x wx := by
  rw [vecCompare_eq_orderSign hub hx hy, vecCompare_eq_orderSign hub hy hx, orderSign_swap]

end

/-- Settles O49: the scan is the order of the two numbers, which is reflexive and antisymmetric. -/
theorem compareLaws : Obligations.CompareLaws := by
  intro p x wx y wy hx hy
  have hub := unitBits_pos p
  exact ⟨vecCompare_self hub hx, vecCompare_swap hub hx hy⟩

end Sys2Proof.Machine

/-! PROOF. Completion and the port (spec/60_exceptions.md R111; spec/70_reset_and_hazards.md R132, R135, R137): every
accepted command answers a next state with the port ready, from the sampled values alone, and takes nothing off the
host's list. -/

namespace Sys2Proof.Machine

/-! ## Every command and every step completes -/

section
variable {i : Instr} {s t : State}

/-- Every shape of a next state leaves the port ready (spec/30_encoding.md R57). -/
theorem CommandResult.handshake_eq (h : CommandResult i s t) : t.handshake = .idle := by
  cases h with
  | error | readError | noop | vector | scalar | bitout | result | cmpout => rfl

theorem runSampled_handshake (h : runSampled s = .next t) : t.handshake = .idle := by
  obtain ⟨i, -, hexec⟩ | ⟨e, -, rfl⟩ := runSampled_cases h
  · exact (exec_shape hexec).handshake_eq
  · exact raiseError_handshake s .illegalCommand

theorem runSampled_inputs (h : runSampled s = .next t) : t.inputs = s.inputs := by
  obtain ⟨i, -, hexec⟩ | ⟨e, -, rfl⟩ := runSampled_cases h
  · obtain ⟨-, hinputs⟩ := (exec_shape hexec).port_eq
    exact hinputs
  · exact raiseError_inputs s .illegalCommand

/-- An error is on record in `ERRS` when its command completes (spec/10_state.md R35). -/
theorem runSampled_errs_of_error (h : runSampled s = .next t) (herr : t.err ≠ 0#3) : t.errs = 1#1 := by
  rw [runSampled_errs h, if_neg herr]

end

/-- The command in progress completes, whether its word is legal or not (spec/60_exceptions.md R111). -/
theorem runSampled_completes (s : State) : ∃ t, runSampled s = .next t := by
  cases h : decode s.sampled.cmd with
  | ok i => rw [runSampled_of_ok h]; exact exec_completes i s
  | error e => exact ⟨_, runSampled_of_error h⟩

theorem runSampled_completes_idle (s : State) : ∃ t, runSampled s = .next t ∧ t.handshake = .idle := by
  obtain ⟨t, h⟩ := runSampled_completes s
  exact ⟨t, h, runSampled_handshake h⟩

/-- A step completes too, by what heads the host's list and the handshake. -/
theorem step_completes_idle (s : State) : ∃ t, step s = .next t ∧ t.handshake = .idle := by
  match hi : s.inputs, hh : s.handshake with
  | .reset :: rest, _ => exact ⟨_, step_of_reset hi, hardReset_handshake s rest⟩
  | [], .idle => exact ⟨s, step_of_no_input hi hh, hh⟩
  | .command r :: rest, .idle => rw [step_of_command hi hh]; exact runSampled_completes_idle (accept s r rest)
  | [], .busy => rw [step_of_busy (by simp [hi]) hh]; exact runSampled_completes_idle s
  | .command _ :: _, .busy => rw [step_of_busy (by simp [hi]) hh]; exact runSampled_completes_idle s

/-- Settles O11: an error sets `ERRS`, and every shape of a next state leaves the port idle. -/
theorem everyCommandCompletes : Obligations.EveryCommandCompletes := by
  refine ⟨fun s => ?_, step_completes_idle⟩
  obtain ⟨t, h⟩ := runSampled_completes s
  exact ⟨t, h, runSampled_handshake h, runSampled_errs_of_error h⟩

/-- Settles O9: the first command leaves the port idle and the host's list as it was, so the next step accepts the
command that heads it. -/
theorem presentedCommandWaits : Obligations.PresentedCommandWaits := by
  intro s r rest hbusy hi
  obtain ⟨t, hrun⟩ := runSampled_completes s
  have hstep : step s = .next t := (step_of_busy (by simp [hi]) hbusy).trans hrun
  have hidle := runSampled_handshake hrun
  have hwaits : t.inputs = .command r :: rest := (runSampled_inputs hrun).trans hi
  exact ⟨t, hstep, hrun, hidle, hwaits, step_of_command hwaits hidle⟩

/-! ## What is presented after acceptance -/

/-- Another list of what the host is going to present. -/
def withInputs (s : State) (later : List HostEvent) : State := { s with inputs := later }

/-- Two outcomes that are next states and differ in the host's list alone. -/
def AnswersAlike (later : List HostEvent) (o o' : Host.Outcome State Fault Refusal) : Prop :=
  ∃ t, o = .next t ∧ o' = .next (withInputs t later)

section
variable {later : List HostEvent}

theorem AnswersAlike.next (t : State) : AnswersAlike later (.next t) (.next (withInputs t later)) := ⟨t, rfl, rfl⟩

/-- A condition that does not read the list takes the same branch on both sides. -/
theorem AnswersAlike.ite {c : Prop} [Decidable c] {o₁ o₁' o₂ o₂' : Host.Outcome State Fault Refusal}
    (h₁ : AnswersAlike later o₁ o₁') (h₂ : AnswersAlike later o₂ o₂') :
    AnswersAlike later (if c then o₁ else o₂) (if c then o₁' else o₂') := by
  split
  · exact h₁
  · exact h₂

end

theorem shiftBy_withInputs (dir : ShiftDir) (s : State) (later : List HostEvent) :
    shiftBy dir (withInputs s later) = withInputs (shiftBy dir s) later := by
  rw [shiftBy, shiftBy, apply_ite (withInputs · later)]
  rfl

/-- No condition and no number of any command reads the host's list, so each takes the same branch for another one. -/
theorem exec_withInputs (i : Instr) (s : State) (later : List HostEvent) :
    AnswersAlike later (exec i s) (exec i (withInputs s later)) := by
  cases i with
  | load w =>
    simp only [exec, execLoad]
    cases loadWidth w with
    | none => exact .next _
    | some wbits => exact .ite (.next _) (.next _)
  | read | getbit | setbit => exact .ite (.next _) (.next _)
  | inc => exact .ite (.next _) (.ite (.next _) (.next _))
  | fill | and | or | xor | not | cmp => exact .next _
  | shl => exact ⟨_, rfl, congrArg _ (shiftBy_withInputs .left s later)⟩
  | shr => exact ⟨_, rfl, congrArg _ (shiftBy_withInputs .right s later)⟩

/-- Settles O10: the list is read neither by the decoder nor by any command. -/
theorem commandUsesSampledValuesOnly : Obligations.CommandUsesSampledValuesOnly := by
  intro s later
  show AnswersAlike later (runSampled s) (runSampled (withInputs s later))
  cases h : decode s.sampled.cmd with
  | ok i =>
    rw [runSampled_of_ok h, runSampled_of_ok (s := withInputs s later) h]
    exact exec_withInputs i s later
  | error e =>
    rw [runSampled_of_error h, runSampled_of_error (s := withInputs s later) h]
    exact .next _

end Sys2Proof.Machine

/-! PROOF. Errors (spec/60_exceptions.md R112, R113, R115): the state after one is the state before plus the status, and
each command reports the code of the table. -/

namespace Sys2Proof.Machine

/-! ## The state after an error -/

section
variable {i : Instr} {s t : State}

theorem CommandResult.eq_of_error (h : CommandResult i s t) (hi : i ≠ .read) (herr : t.err ≠ 0#3) :
    t = { s with err := t.err, errs := 1#1, handshake := .idle } := by
  cases h with
  | error => rfl
  | readError hread => exact absurd hread hi
  | noop | vector | scalar | bitout | result | cmpout => exact absurd rfl herr

/-- READ's error clears `SCALAR` besides (spec/40_construct_convert.md R75). -/
theorem CommandResult.eq_of_readError (h : CommandResult .read s t) (herr : t.err ≠ 0#3) :
    t = { s with err := t.err, errs := 1#1, handshake := .idle, scalar := 0#64 } := by
  cases h with
  | error _ hi => exact absurd rfl hi
  | readError => rfl
  | noop | vector | scalar | bitout | result | cmpout => exact absurd rfl herr

end

/-- Settles O17: of the shapes of a next state only the two errors have `ERR` nonzero. -/
theorem errorsChangeOnlyStatus : Obligations.ErrorsChangeOnlyStatus := by
  intro s t h herr
  obtain ⟨i, hdec, hexec⟩ | ⟨e, hdec, rfl⟩ := runSampled_cases h
  · have hshape := exec_shape hexec
    refine ⟨fun hread => ?_, fun hread => hshape.eq_of_error (fun hi => hread (hi ▸ hdec)) herr⟩
    obtain rfl : i = .read := Except.ok.inj (hdec.symm.trans hread)
    exact hshape.eq_of_readError herr
  · exact ⟨fun hread => (nomatch hdec.symm.trans hread), fun _ => rfl⟩

/-! ## The code every command reports -/

/-- The command completes with this code in `ERR`. -/
def Reports (i : Instr) (s : State) (code : BitVec 3) : Prop := ∃ t, exec i s = .next t ∧ t.err = code

/-- LOAD tests its width code before it compares the width with `N` (R115). -/
theorem reports_load (w : BitVec 3) (s : State) :
    Reports (.load w) s (if 4 ≤ w.toNat then 1#3 else if 8 * 2 ^ w.toNat ≠ s.params.n then 5#3 else 0#3) := by
  by_cases hcode : 4 ≤ w.toNat
  · exact ⟨_, exec_load_of_none (loadWidth_of_ge hcode), (if_pos hcode).symm⟩
  · have hw := loadWidth_of_lt (Nat.lt_of_not_le hcode)
    rw [if_neg hcode]
    by_cases hn : 8 * 2 ^ w.toNat = s.params.n
    · exact ⟨_, exec_load_of_eq (hn ▸ hw), (if_neg (not_not.mpr hn)).symm⟩
    · exact ⟨_, exec_load_of_ne hw hn, (if_pos hn).symm⟩

theorem reports_read (s : State) : Reports .read s (if capacity s.params ∈ [8, 16, 32, 64] then 0#3 else 3#3) := by
  obtain ⟨t, h, hlegal, hcode⟩ := exec_read_err s
  rw [readLegal_iff_mem] at hlegal
  refine ⟨t, h, ?_⟩
  split
  · next hcap => exact hlegal.mpr hcap
  · next hcap => exact hcode (mt hlegal.mp hcap)

theorem reports_setbit (f : Bool) (s : State) :
    Reports (.setbit f) s (if s.params.n ≤ s.sampled.data.toNat then 2#3 else 0#3) := by
  obtain ⟨t, h⟩ := exec_completes (.setbit f) s
  refine ⟨t, h, ?_⟩
  obtain ⟨hpast, rfl⟩ | ⟨hbelow, rfl⟩ := execSetbit_cases h
  · exact (if_pos hpast).symm
  · exact (if_neg (Nat.not_le.mpr hbelow)).symm

/-- INC reports an error only under REJECT, and then by the magnitude alone (spec/43_add_sub.md R91). -/
theorem reports_inc (s : State) :
    Reports .inc s (if s.params.wideDelta = .reject ∧ 2 ^ capacity s.params ≤ s.sampled.data.toInt.natAbs
      then 6#3 else 0#3) := by
  obtain ⟨t, h⟩ := exec_completes .inc s
  refine ⟨t, h, ?_⟩
  rw [← operandSigned_eq_toInt]
  obtain ⟨hzero, rfl⟩ | ⟨-, hwide, hreject, rfl⟩ | ⟨-, haccepted, rfl⟩ := execInc_cases h
  · simp [hzero]
  · rw [if_pos ⟨hreject, of_decide_eq_true hwide⟩]; rfl
  · refine (if_neg fun ⟨hreject, hwide⟩ => ?_).symm
    obtain hfits | hwrap := haccepted
    · exact of_decide_eq_false hfits hwide
    · exact nomatch hreject.symm.trans hwrap

theorem reports_getbit (s : State) : Reports .getbit s 0#3 := by
  obtain ⟨t, h⟩ := exec_completes .getbit s
  obtain ⟨-, rfl⟩ | ⟨-, rfl⟩ := execGetbit_cases h <;> exact ⟨_, h, rfl⟩

/-- A shift is legal for every count (spec/45_shift.md R103, R104). -/
theorem shiftBy_err (dir : ShiftDir) (s : State) : (shiftBy dir s).err = 0#3 := by
  obtain ⟨-, h⟩ | ⟨-, h⟩ := shiftBy_cases dir s <;> rw [h, completeOk_err]

/-- Settles O18, by the command the sampled word decodes to. -/
theorem errorCodesAsTabulated : Obligations.ErrorCodesAsTabulated := by
  intro s
  cases hdec : decode s.sampled.cmd with
  | error e => exact ⟨_, runSampled_of_error hdec, rfl⟩
  | ok i =>
    rw [runSampled_of_ok hdec]
    cases i with
    | load w => exact reports_load w s
    | read => exact reports_read s
    | setbit f => exact reports_setbit f s
    | inc => exact reports_inc s
    | getbit => exact reports_getbit s
    | shl => exact ⟨_, rfl, shiftBy_err .left s⟩
    | shr => exact ⟨_, rfl, shiftBy_err .right s⟩
    | fill | and | or | xor | not | cmp => exact ⟨_, rfl, rfl⟩

end Sys2Proof.Machine

/-! PROOF. Reset against FILL.0 (spec/70_reset_and_hazards.md R130). -/

namespace Sys2Proof.Machine

section
variable {s t : State}

/-- A set `ERRS` that a step clears was cleared by reset. -/
theorem reset_of_errs_cleared (hset : s.errs = 1#1) (h : step s = .next t) (hclear : t.errs = 0#1) :
    ∃ rest, s.inputs = .reset :: rest := by
  by_contra hno
  obtain ⟨-, hsticky, -⟩ := errsIsSticky
  have hkept : t.errs = 1#1 := hsticky s t hset (not_exists.mp hno) h
  exact absurd (hclear.symm.trans hkept) (by decide)

/-- `RES_W` becomes `N` only through a command that writes `RES` at a width of `N` (spec/44_logic.md R96 to R99). -/
theorem exec_resW_eq_n {i : Instr} (h : exec i s = .next t) (hne : s.resW ≠ s.params.n)
    (hn : t.resW = s.params.n) :
    i = .not ∨ (i = .and ∧ s.params.n ≤ s.params.nb) ∨ ((i = .or ∨ i = .xor) ∧ s.params.nb ≤ s.params.n) := by
  cases i with
  | not => exact .inl rfl
  | and => cases h; exact .inr (.inl ⟨rfl, min_eq_left_iff.mp hn⟩)
  | or => cases h; exact .inr (.inr ⟨.inl rfl, max_eq_left_iff.mp hn⟩)
  | xor => cases h; exact .inr (.inr ⟨.inr rfl, max_eq_left_iff.mp hn⟩)
  | load | read | fill | getbit | setbit | inc | shl | shr | cmp =>
    obtain ⟨-, hkept⟩ := (exec_shape h).res_eq (by simp)
    exact absurd (hkept.symm.trans hn) hne

end

/-- Settles O56: ERRS is sticky, FILL does not read `V`, and each command has its width of `RES`. -/
theorem fillZeroIsNotReset : Obligations.FillZeroIsNotReset :=
  ⟨fun _ _ => reset_of_errs_cleared, exec_fill false, fun _ _ _ => exec_resW_eq_n⟩

end Sys2Proof.Machine
